-- ==== Sys2Proof/Word.lean ====
section
/-! DEFINITION. The widths of FSX's data (spec/00_scope.md R6, R8): bytes, 16-bit halves, 32-bit words, 20-bit host
addresses. Two's complement (R8 `signed_N`) is `BitVec.toInt`. -/

namespace Sys2Proof

/-- A byte of IBUF (u8). -/
abbrev Byte := BitVec 8

/-- A u16: candidate index, length, start, sample pattern. -/
abbrev Half := BitVec 16

/-- `DATA_WIDTH` = 32: the host data word, the command word, the timestamp pattern. -/
abbrev Word := BitVec 32

/-- `ADDR_WIDTH` = 20: a host byte address. -/
abbrev Addr := BitVec 20

end Sys2Proof
end

