-- ==== Sys2Proof/Config.lean ====
section
/-! DEFINITION. What an implementation of FSX fixes (spec/00_scope.md R6, R7) and the free values the spec leaves open
(R9 `draw()`, spec/93_implementation_defined.md U2-U5). -/

namespace Sys2Proof

/-- The two parameters of an instance (00_scope.md R6: `IBUF_SIZE`, `PAYLOAD_OFFSET`). They are data of State, so that
every value in range is a machine of this model (92_eei_decisions.md D5, D6); no step changes them. -/
structure Params where
  ibufSize      : Nat
  payloadOffset : Nat
deriving DecidableEq, Repr

namespace Config

/-- `TS_OFFSET` (R6). -/
@[simp] abbrev tsOffset : Nat := 6

/-- `TS_LEN` (R6). -/
@[simp] abbrev tsLen : Nat := 4

/-- `TS_END = TS_OFFSET + TS_LEN` (R6). -/
@[simp] abbrev tsEnd : Nat := 10

/-- `SAMPLE_BYTES` (R6). -/
@[simp] abbrev sampleBytes : Nat := 2

/-- `EXPECTED_SAMPLES` (R6). -/
@[simp] abbrev expectedSamples : Nat := 7

/-- `DELIM_RESET` (R6): ASCII ':'. -/
@[simp] abbrev delimReset : Byte := 0x3A

/-- The reference values of R6. DESIGN CHOICE (log 8): the spec leaves the parameters open and the model's
`State.reset` is the instance at the reference values. -/
def reference : Params := ⟨4096, 10⟩

/-- `draw()` of 32 bits (R9; 20_memory.md R72), the `n`-th value drawn. No body: nothing constrains it (log 5). -/
opaque drawWord : Nat → Word

/-- `draw()` of a byte (20_memory.md R64), the `n`-th value drawn. No body: nothing constrains it (log 5). -/
opaque drawByte : Nat → Byte

/-- What `CAND_START[i]` holds where no SCAN has written it (10_state.md R40, R47: unspecified). Free value (log 7). -/
opaque unspecifiedStart : Nat → Half

/-- What `CAND_LEN[i]` holds where no SCAN has written it (10_state.md R40, R47: unspecified). Free value (log 7). -/
opaque unspecifiedLen : Nat → Half

/-- What `RES_SAMP[k]` holds where no decode has written it (10_state.md R44, R47: unspecified). Free value (log 7). -/
opaque unspecifiedSample : Nat → Half

end Config

/-- `MAX_CANDS` (R6). -/
def Params.maxCands (p : Params) : Nat := p.ibufSize + 1

/-- `MAX_SAMP` (R6): `(IBUF_SIZE - PAYLOAD_OFFSET) div 2` if `IBUF_SIZE >= PAYLOAD_OFFSET`, else 0. -/
def Params.maxSamp (p : Params) : Nat :=
  if p.payloadOffset ≤ p.ibufSize then (p.ibufSize - p.payloadOffset) / 2 else 0

end Sys2Proof
end

