-- ==== Sys2Proof/Syntax.lean ====
section
/-! DEFINITION. The commands of FSX: one constructor for each row of spec/opcode_table.json (30_encoding.md R102). -/

namespace Sys2Proof

/-- A legal command. Every one carries the IDX field of its word (30_encoding.md R100): NOP and SCAN ignore it (R104),
but their words still differ in it, so that encoding loses no bit. -/
inductive Instr where
  /-- NOP (40_control.md R123). -/
  | nop (idx : BitVec 16)
  /-- SCAN (41_scanner.md R140). -/
  | scan (idx : BitVec 16)
  /-- DEC_TS (42_extractor.md R166). -/
  | decTs (idx : BitVec 16)
  /-- DEC_SAMP (42_extractor.md R167). -/
  | decSamp (idx : BitVec 16)
  /-- DEC_FULL (42_extractor.md R168). -/
  | decFull (idx : BitVec 16)
deriving DecidableEq, Repr

end Sys2Proof
end

