-- ==== Sys2Proof/Machine/State.lean ====
section
/-! DEFINITION. The state of one FSX instance (spec/10_state.md R20), plain data, and its value after reset (R47). -/

namespace Sys2Proof.Machine

/-- CFG.BO (10_state.md R27): `BO = 0` little-endian, `BO = 1` big-endian. -/
inductive ByteOrder where
  | little
  | big
deriving DecidableEq, Repr

/-- CFG (R25): the two fields; CFG[31:9] has no storage (R28: reads 0, writes ignored). -/
structure Cfg where
  delim : Byte
  bo    : ByteOrder
deriving DecidableEq, Repr

/-- The completion codes (60_exceptions.md R201). The values 0x4..0xF are never produced (10_state.md R32), so the type
has none of them (log 11). -/
inductive CompletionCode where
  | ok
  | tooShort
  | badIndex
  | badCmd
deriving DecidableEq, Repr

/-- STATUS (10_state.md R29), field by field; the reserved bits have no storage and read 0. -/
structure Status where
  busy    : Bool
  done    : Bool
  code    : CompletionCode
  odd     : Bool
  nominal : Bool
  busyErr : Bool
  accErr  : Bool
deriving DecidableEq, Repr

/-- One entry of the candidate table (R40). -/
structure Candidate where
  start : Half
  len   : Half
deriving DecidableEq, Repr

/-- IBUF (R23): the cells a write has defined since the last reset, by rising index, no index twice. An unlisted cell is
`UNINIT` (log 6). -/
abbrev Memory := List Host.Cell

/-- The size of a host access, 1 or 4 bytes (20_memory.md R61). -/
inductive Size where
  | byte
  | word
deriving DecidableEq, Repr

/-- A HOST transaction (R61). -/
inductive Transaction where
  | read (addr : Addr) (size : Size)
  | write (addr : Addr) (size : Size) (data : Word)
deriving DecidableEq, Repr

/-- The `resp` of a transaction (R61). -/
inductive Resp where
  | ok
  | err
deriving DecidableEq, Repr

/-- What a transaction returned to the HOST (R61). -/
inductive Response where
  | read (resp : Resp) (data : Word)
  | write (resp : Resp)
deriving DecidableEq, Repr

/-- One turn of the schedule (20_memory.md R79): a HOST transaction, a turn of the ENGINE, or a reset (log 1). -/
inductive Turn where
  | host (t : Transaction)
  | engine
  | reset
deriving DecidableEq, Repr

/-- The state tuple of R20, the parameters (R20: configuration, never changed), and three fields of the model's own:
`turns`, `draws`, `log` (log 1, 5, 10). -/
structure State where
  /-- The instance's parameters (00_scope.md R6). -/
  params    : Params
  /-- IBUF (R23). -/
  ibuf      : Memory
  /-- IN_LEN (R24). -/
  inLen     : Half
  /-- CFG (R25). -/
  cfg       : Cfg
  /-- STATUS (R29). -/
  status    : Status
  /-- PEND (R45): NONE or a legal command with its index. -/
  pend      : Option Instr
  /-- CAND_COUNT, u17 (R39). -/
  candCount : BitVec 17
  /-- The candidate table's entries written so far (R40); an entry past the list has never been written. -/
  candTable : List Candidate
  /-- RES_IDX (R41). -/
  resIdx    : Half
  /-- RES_FLEN (R41). -/
  resFlen   : Half
  /-- RES_TS (R42). -/
  resTs     : Word
  /-- RES_NSAMP (R43). -/
  resNsamp  : Half
  /-- The RES_SAMP registers written so far (R44); a register past the list has never been written. -/
  resSamp   : List Half
  /-- The model's: the turns to come, next first (log 1). -/
  turns     : List Turn
  /-- The model's: how many free values `draw()` has given (log 5). -/
  draws     : Nat
  /-- The model's: what the HOST's transactions returned, newest first (log 10). -/
  log       : List Response
deriving DecidableEq, Repr

/-- The one fault of the model; the hardware has none (60_exceptions.md R200). -/
inductive Fault where
  /-- `fault(UNINIT_READ)` (20_memory.md R85, 40_control.md R121): SCAN, DEC_TS, DEC_SAMP or DEC_FULL read the IBUF cell
  `index`, which no write has defined since reset. Safe: the hardware goes on with some byte (log 6). -/
  | uninitRead (index : Nat)
deriving DecidableEq, Repr

/-- Refusals. No command of FSX is refused. -/
inductive Refusal where
  /-- A command with no meaning yet, by its mnemonic: raised by an arm of exec alone. Safe. No arm raises it. -/
  | notModelled (mnemonic : String)
deriving DecidableEq, Repr

/-- STATUS after reset: 0x00000000 (R47). -/
def Status.reset : Status := ⟨false, false, .ok, false, false, false, false⟩

/-- The reset values of R47 at given parameters, which are all that survives a reset (R48). -/
def State.resetWith (p : Params) : State where
  params    := p
  ibuf      := []
  inLen     := 0
  cfg       := ⟨Config.delimReset, .little⟩
  status    := Status.reset
  pend      := none
  candCount := 0
  candTable := []
  resIdx    := 0
  resFlen   := 0
  resTs     := 0
  resNsamp  := 0
  resSamp   := []
  turns     := []
  draws     := 0
  log       := []

/-- The machine right after reset, at the reference parameters (log 8), with no turn scheduled (log 1, 4). -/
def State.reset : State := State.resetWith Config.reference

end Sys2Proof.Machine
end

