-- ==== Sys2Proof/Machine/Ops.lean ====
section
/-! DEFINITION. The named operations over IBUF, the byte order and the registers, and `raise`, the one way a command ends
with a code. FSX has no exceptions to take and none to return from (spec/60_exceptions.md R200, R207): `raise` records a
code and control goes nowhere (00_scope.md R9). -/

namespace Sys2Proof.Machine

/-! ## IBUF -/

/-- What a cell no write has defined reads as: `UNINIT` (10_state.md R23, R47; log 6). -/
def Memory.unlisted : Option Byte := none

/-- `IBUF[a]`: the byte, or `UNINIT` (none). -/
def Memory.read : Memory → Nat → Option Byte
  | [], _ => Memory.unlisted
  | (k, b) :: m, a => if a = k then some b else Memory.read m a

/-- `MemWrite(a, 1, v)`, the HOST's byte write (20_memory.md R64), keeping the cells in rising order. -/
def Memory.write : Memory → Nat → Byte → Memory
  | [], a, v => [(a, v)]
  | (k, b) :: m, a, v =>
    if a < k then (a, v) :: (k, b) :: m
    else if a = k then (k, v) :: m
    else (k, b) :: Memory.write m a v

/-- The canonical form: indices strictly rising. No byte equals what an unlisted cell reads as, so nothing more is asked
of an entry. -/
def Memory.wf : Memory → Bool
  | [] => true
  | [_] => true
  | (k, _) :: (l, c) :: m => decide (k < l) && Memory.wf ((l, c) :: m)

/-- `MemRead(a, n)` (00_scope.md R9): `n` bytes in address order; `fault(UNINIT_READ)` at the first cell that is UNINIT
(20_memory.md R85). A cell at or above IBUF_SIZE does not exist and is never listed, so it reads the same way (log 12). -/
def memRead (m : Memory) (a : Nat) : Nat → Except Fault (List Byte)
  | 0 => .ok []
  | n + 1 =>
    match Memory.read m a with
    | none => .error (.uninitRead a)
    | some b =>
      match memRead m (a + 1) n with
      | .error f => .error f
      | .ok bs => .ok (b :: bs)

/-! ## Byte order -/

/-- `assemble(b, 0)` of 20_memory.md R75: the sum of `b[j] * 2^(8j)`. -/
def assembleLittle : List Byte → Nat
  | [] => 0
  | b :: bs => b.toNat + 256 * assembleLittle bs

/-- `assemble(bytes, bo)` (R75). Big-endian weighs the bytes the other way round. -/
def assemble (bs : List Byte) : ByteOrder → Nat
  | .little => assembleLittle bs
  | .big => assembleLittle bs.reverse

/-! ## Registers -/

/-- The candidate table's entry `i` (10_state.md R40). An entry no SCAN has written holds a free value (log 7). -/
def State.candAt (s : State) (i : Nat) : Candidate :=
  match s.candTable[i]? with
  | some c => c
  | none => ⟨Config.unspecifiedStart i, Config.unspecifiedLen i⟩

/-- `RES_SAMP[k]` (R44). A register no decode has written holds a free value (log 7). -/
def State.sampleAt (s : State) (k : Nat) : Half :=
  match s.resSamp[k]? with
  | some v => v
  | none => Config.unspecifiedSample k

/-- SCAN's writes to the table (41_scanner.md R140): entries `0 .. c-1` and `CAND_COUNT <- c`. -/
def State.putCandidates (s : State) (cs : List Candidate) : State :=
  { s with candTable := cs ++ s.candTable.drop cs.length, candCount := BitVec.ofNat 17 cs.length }

/-- The candidate invalidation of 20_memory.md R73: `CAND_COUNT <- 0` and nothing else. -/
def State.invalidate (s : State) : State := { s with candCount := 0 }

/-- `RES_IDX <- idx; RES_FLEN <- L` (42_extractor.md R160). -/
def State.putFrame (s : State) (idx len : Half) : State := { s with resIdx := idx, resFlen := len }

/-- `RES_TS <- v` (10_state.md R42). -/
def State.putTs (s : State) (v : Word) : State := { s with resTs := v }

/-- `RES_NSAMP <- 0` (R43), as DEC_TS and a TOO_SHORT do. -/
def State.clearSamples (s : State) : State := { s with resNsamp := 0 }

/-- The writes of sample extraction (42_extractor.md R164): `RES_SAMP[0 .. n-1]` and `RES_NSAMP <- n`; `RES_SAMP[k]` for
`k >= n` is not written. -/
def State.putSamples (s : State) (vs : List Half) : State :=
  { s with resSamp := vs ++ s.resSamp.drop vs.length, resNsamp := BitVec.ofNat 16 vs.length }

/-- `STATUS.CODE <- code`: how every command ends, with OK or by `raise <Code>` (00_scope.md R9). -/
def State.raise (s : State) (c : CompletionCode) : State := { s with status := { s.status with code := c } }

end Sys2Proof.Machine
end

