-- ==== Sys2Proof/Machine/Flags.lean ====
section
/-! DEFINITION. STATUS, the block's only flags (spec/10_state.md R29-R37), and the words of CFG and PARAM. -/

namespace Sys2Proof.Machine

/-- The four bits of CODE (60_exceptions.md R201). -/
def CompletionCode.bits : CompletionCode → BitVec 4
  | .ok => 0x0
  | .tooShort => 0x1
  | .badIndex => 0x2
  | .badCmd => 0x3

/-- The STATUS word (10_state.md R29), most significant field first; reserved fields read 0. -/
def Status.word (t : Status) : Word :=
  0#14 ++ BitVec.ofBool t.accErr ++ BitVec.ofBool t.busyErr ++ 0#6 ++ BitVec.ofBool t.nominal ++ BitVec.ofBool t.odd
    ++ t.code.bits ++ 0#2 ++ BitVec.ofBool t.done ++ BitVec.ofBool t.busy

/-- The bit of BO (R27). -/
def ByteOrder.bit : ByteOrder → BitVec 1
  | .little => 0
  | .big => 1

/-- The byte order a BO bit selects (R27). -/
def ByteOrder.ofBit (b : Bool) : ByteOrder := if b then .big else .little

/-- The CFG word: `zext_32({BO, DELIM})` with bits 31:9 = 0 (20_memory.md R69). -/
def Cfg.word (c : Cfg) : Word := 0#23 ++ c.bo.bit ++ c.delim

/-- A write of `v` to CFG (R70): DELIM from bits 7:0, BO from bit 8, bits 31:9 ignored. -/
def Cfg.ofWord (v : Word) : Cfg := ⟨v.extractLsb' 0 8, ByteOrder.ofBit (v.getLsbD 8)⟩

/-- The PARAM word (10_state.md R38). -/
def Params.word (p : Params) : Word :=
  BitVec.ofNat 8 Config.expectedSamples ++ BitVec.ofNat 8 p.payloadOffset ++ BitVec.ofNat 16 p.ibufSize

/-- Issue of a legal command (40_control.md R120): the per-command fields cleared, BUSY set. -/
def Status.issue (t : Status) : Status :=
  { t with busy := true, done := false, code := .ok, odd := false, nominal := false }

/-- An illegal word at issue (40_control.md R122): BAD_CMD, at once. -/
def Status.badCmd (t : Status) : Status :=
  { t with done := true, code := .badCmd, odd := false, nominal := false }

/-- The completion's writes to STATUS (40_control.md R121). -/
def Status.complete (t : Status) : Status := { t with busy := false, done := true }

/-- The write-1-to-clear of 10_state.md R37. -/
def Status.clearSticky (t : Status) (v : Word) : Status :=
  { t with busyErr := t.busyErr && !v.getLsbD 16, accErr := t.accErr && !v.getLsbD 17 }

/-- Payload status (42_extractor.md R165) for a payload of `p` bytes: ODD is `p mod 2`, NOMINAL tells 7 samples. -/
def Status.payload (t : Status) (p : Nat) : Status :=
  { t with odd := decide (p % 2 = 1), nominal := decide (p / 2 = Config.expectedSamples) }

/-- `complete()` (00_scope.md R9; 40_control.md R121): `PEND <- NONE; STATUS.BUSY <- 0; STATUS.DONE <- 1`. -/
def State.complete (s : State) : State := { s with pend := none, status := s.status.complete }

/-- The STATUS writes of R165 on the state. -/
def State.payloadStatus (s : State) (p : Nat) : State := { s with status := s.status.payload p }

/-- A refused access (20_memory.md R68): `STATUS.ACC_ERR <- 1` and nothing else. -/
def State.refuseAccess (s : State) : State := { s with status := { s.status with accErr := true } }

/-- An accepted write ignored while busy (R71): `STATUS.BUSY_ERR <- 1` and nothing else. -/
def State.ignoreBusy (s : State) : State := { s with status := { s.status with busyErr := true } }

end Sys2Proof.Machine
end

