-- ==== Sys2Proof/Machine/Operands.lean ====
section
/-! DEFINITION. The operand forms of FSX's commands: the candidate an index names (spec/42_extractor.md R160), the fields
of a candidate (R161-R164) and the capture SCAN splits (41_scanner.md R140). -/

namespace Sys2Proof.Machine

/-- `Lookup(idx)` (R160): the candidate, with RES_IDX and RES_FLEN written; none where it raises BAD_INDEX, nothing
written. -/
def lookup (idx : Half) (s : State) : Option (Candidate × State) :=
  if idx.toNat < s.candCount.toNat then
    some (s.candAt idx.toNat, s.putFrame idx (s.candAt idx.toNat).len)
  else none

/-- The length validator `TooShort(L) := L < TS_END` (R161). -/
def tooShort (len : Half) : Bool := decide (len.toNat < Config.tsEnd)

/-- `PLEN(L)` (R163). -/
def payloadLen (p : Params) (len : Half) : Nat :=
  if p.payloadOffset ≤ len.toNat then len.toNat - p.payloadOffset else 0

/-- `ExtractTS(s)` (R162) of a candidate. -/
def extractTs (c : Candidate) (s : State) : Except Fault Word :=
  match memRead s.ibuf (c.start.toNat + Config.tsOffset) Config.tsLen with
  | .error f => .error f
  | .ok bs => .ok (BitVec.ofNat 32 (assemble bs s.cfg.bo))

/-- `n` samples from index `a` on, in stream order (R164): a 2-byte group each, in byte order `bo`. -/
def readSamples (m : Memory) (bo : ByteOrder) (a : Nat) : Nat → Except Fault (List Half)
  | 0 => .ok []
  | n + 1 =>
    match memRead m a Config.sampleBytes with
    | .error f => .error f
    | .ok bs =>
      match readSamples m bo (a + Config.sampleBytes) n with
      | .error f => .error f
      | .ok vs => .ok (BitVec.ofNat 16 (assemble bs bo) :: vs)

/-- Sample extraction's reads (R164) for a candidate: `PLEN(L) div 2` samples from `PAYLOAD_OFFSET` on. -/
def extractSamples (c : Candidate) (s : State) : Except Fault (List Half) :=
  readSamples s.ibuf s.cfg.bo (c.start.toNat + s.params.payloadOffset)
    (payloadLen s.params c.len / Config.sampleBytes)

/-- The capture `IBUF[0 .. IN_LEN-1]` (10_state.md R24), read in ascending order. -/
def readCapture (s : State) : Except Fault (List Byte) := memRead s.ibuf 0 s.inLen.toNat

end Sys2Proof.Machine
end

