-- ==== Sys2Proof/Machine/Control.lean ====
section
/-! DEFINITION. The control family (spec/40_control.md): NOP. -/

namespace Sys2Proof.Machine

/-- NOP (40_control.md R123): `STATUS.CODE <- OK`. IDX is ignored. -/
def execNop (_idx : Half) (s : State) : Host.Outcome State Fault Refusal := .next (s.raise .ok)

end Sys2Proof.Machine
end

