-- ==== Sys2Proof/Machine/Extractor.lean ====
section
/-! DEFINITION. The field extractor and length validator (spec/42_extractor.md): DEC_TS, DEC_SAMP, DEC_FULL. BAD_INDEX is
decided before TOO_SHORT and TOO_SHORT before any byte is read (60_exceptions.md R203). -/

namespace Sys2Proof.Machine

/-- The end of a decode that found its candidate too short (R166, R168): `RES_TS <- 0; RES_NSAMP <- 0; raise TOO_SHORT`. -/
def State.raiseTooShort (s : State) : State := (s.clearSamples.putTs 0).raise .tooShort

/-- Sample extraction with its status and the command's end (R164, R165, then CODE <- OK), on a candidate. -/
def finishSamples (c : Candidate) (s : State) : Host.Outcome State Fault Refusal :=
  match extractSamples c s with
  | .error f => .fault f
  | .ok vs => .next (((s.putSamples vs).payloadStatus (payloadLen s.params c.len)).raise .ok)

/-- DEC_TS (R166). -/
def execDecTs (idx : Half) (s : State) : Host.Outcome State Fault Refusal :=
  match lookup idx s with
  | none => .next (s.raise .badIndex)
  | some (c, s1) =>
    if tooShort c.len then .next s1.raiseTooShort
    else
      match extractTs c s1 with
      | .error f => .fault f
      | .ok ts => .next ((s1.clearSamples.putTs ts).raise .ok)

/-- DEC_SAMP (R167). -/
def execDecSamp (idx : Half) (s : State) : Host.Outcome State Fault Refusal :=
  match lookup idx s with
  | none => .next (s.raise .badIndex)
  | some (c, s1) => finishSamples c (s1.putTs 0)

/-- DEC_FULL (R168). -/
def execDecFull (idx : Half) (s : State) : Host.Outcome State Fault Refusal :=
  match lookup idx s with
  | none => .next (s.raise .badIndex)
  | some (c, s1) =>
    if tooShort c.len then .next s1.raiseTooShort
    else
      match extractTs c s1 with
      | .error f => .fault f
      | .ok ts => finishSamples c (s1.putTs ts)

end Sys2Proof.Machine
end

