-- ==== Sys2Proof/Machine/Scanner.lean ====
section
/-! DEFINITION. The delimiter scanner (spec/41_scanner.md): SCAN. -/

namespace Sys2Proof.Machine

/-- The entry `(start, end - start)` of the table (R140). -/
def Candidate.between (start stop : Nat) : Candidate := ⟨BitVec.ofNat 16 start, BitVec.ofNat 16 (stop - start)⟩

/-- The loop of R140 over the bytes from index `a` on, the current candidate starting at `start`. -/
def splitFrom (d : Byte) (start a : Nat) : List Byte → List Candidate
  | [] => [Candidate.between start a]
  | b :: bs =>
    if b = d then Candidate.between start a :: splitFrom d (a + 1) (a + 1) bs
    else splitFrom d start (a + 1) bs

/-- The candidates of a capture (R140): none for the empty buffer. -/
def split (d : Byte) (bs : List Byte) : List Candidate :=
  if bs.isEmpty then [] else splitFrom d 0 0 bs

/-- SCAN (R140). All bytes are read before the table is written; a fault leaves no next state, so the order does not
show (log 15). -/
def execScan (_idx : Half) (s : State) : Host.Outcome State Fault Refusal :=
  match readCapture s with
  | .error f => .fault f
  | .ok bs => .next ((s.putCandidates (split s.cfg.delim bs)).raise .ok)

end Sys2Proof.Machine
end

