-- ==== Sys2Proof/Machine/Dispatch.lean ====
section
/-! DEFINITION. `Exec(op, idx)` (spec/40_control.md R121): one arm for each command. -/

namespace Sys2Proof.Machine

def exec (i : Instr) (s : State) : Host.Outcome State Fault Refusal :=
  match i with
  | .nop idx => Sys2Proof.Machine.execNop idx s
  | .scan idx => Sys2Proof.Machine.execScan idx s
  | .decTs idx => Sys2Proof.Machine.execDecTs idx s
  | .decSamp idx => Sys2Proof.Machine.execDecSamp idx s
  | .decFull idx => Sys2Proof.Machine.execDecFull idx s

end Sys2Proof.Machine
end

