-- ==== Sys2Proof/Machine/Engine.lean ====
section
/-! DEFINITION. The ENGINE's completion step (spec/40_control.md R121). -/

namespace Sys2Proof.Machine

/-- A turn of the ENGINE: `Exec(op, idx)` and then `complete()`; a fault leaves no next state. While `PEND = NONE` the
ENGINE has no step, and its turn passes (log 3). -/
def engineStep (s : State) : Host.Outcome State Fault Refusal :=
  match s.pend with
  | none => .next s
  | some i =>
    match exec i s with
    | .next t => .next t.complete
    | .fault f => .fault f
    | .refused r => .refused r

end Sys2Proof.Machine
end

