-- ==== Sys2Proof/WellFormed.lean ====
section
/-! DEFINITION. The checks of FSX: the parameter constraints checked at instantiation (00_scope.md R7) and the legality of
a command word (30_encoding.md R102). A term of `Instr` needs no check of its own: its one operand is a u16 by type, and
R104 makes every IDX value a legal encoding. -/

namespace Sys2Proof

/-- The instantiation check of R7: `1 <= IBUF_SIZE <= 65535` and `10 <= PAYLOAD_OFFSET <= 255`. -/
abbrev Params.Valid (p : Params) : Prop :=
  1 ≤ p.ibufSize ∧ p.ibufSize ≤ 65535 ∧ 10 ≤ p.payloadOffset ∧ p.payloadOffset ≤ 255

/-- R102: a word is a legal command exactly when OP is in the opcode map and RSV = 0. -/
def wordLegal (v : Word) : Bool :=
  decide ((v.extractLsb' 0 4).toNat ≤ 4) && decide (v.extractLsb' 4 12 = 0#12)

end Sys2Proof
end

