-- ==== Sys2Proof/Decode.lean ====
section
/-! DEFINITION. Decoding of a command word, total on every 32-bit word and rejecting by name (30_encoding.md R100-R105),
and the encoder, written from the same opcode map. -/

namespace Sys2Proof

/-- Why a word is illegal: the two cases of R103. -/
inductive IllegalWord where
  /-- `CMD[15:4]` is not 0. -/
  | reservedBits (rsv : BitVec 12)
  /-- OP is in 0x5 .. 0xF. -/
  | reservedOp (op : BitVec 4)
deriving DecidableEq, Repr

/-- OP, bits 3:0 (R100). -/
def opField (v : Word) : BitVec 4 := v.extractLsb' 0 4

/-- RSV, bits 15:4 (R100). -/
def rsvField (v : Word) : BitVec 12 := v.extractLsb' 4 12

/-- IDX, bits 31:16 (R100, R101). -/
def idxField (v : Word) : Half := v.extractLsb' 16 16

/-- The decoder: the opcode map of R102. A word that is illegal in both ways is named by its reserved bits; either way it
is one BAD_CMD (R103). -/
def decode (v : Word) : Except IllegalWord Instr :=
  if rsvField v = 0#12 then
    match (opField v).toNat with
    | 0 => .ok (.nop (idxField v))
    | 1 => .ok (.scan (idxField v))
    | 2 => .ok (.decTs (idxField v))
    | 3 => .ok (.decSamp (idxField v))
    | 4 => .ok (.decFull (idxField v))
    | _ => .error (.reservedOp (opField v))
  else .error (.reservedBits (rsvField v))

/-- The OP of each command (R102). -/
def Instr.opcode : Instr → BitVec 4
  | .nop _ => 0x0
  | .scan _ => 0x1
  | .decTs _ => 0x2
  | .decSamp _ => 0x3
  | .decFull _ => 0x4

/-- The IDX operand of each command (R101). -/
def Instr.index : Instr → Half
  | .nop idx => idx
  | .scan idx => idx
  | .decTs idx => idx
  | .decSamp idx => idx
  | .decFull idx => idx

/-- The word of a command, as R100's pattern string: IDX, twelve zeros, OP. -/
def encode (i : Instr) : Word := i.index ++ (0#12 ++ i.opcode)

/-- The 32-bit word whose low `nbits` bits are those of `w` and whose other bits are 0. A command is exactly one 32-bit
word (R105), so bit n of the table's numbering is bit n of the word. -/
def tableWord (nbits w : Nat) : Word := BitVec.ofNat 32 (w % 2 ^ nbits)

/-- The command the decoder reads from a word of the opcode table; none where it refuses, and none for more bits than a
command has. -/
def decodeTableWord (nbits w : Nat) : Option Instr :=
  if nbits ≤ 32 then (decode (tableWord nbits w)).toOption else none

end Sys2Proof
end

