-- ==== Sys2Proof/Machine/HostPort.lean ====
section
/-! DEFINITION. HOST transactions (spec/20_memory.md): the address map, register reads and writes, issue of a command. -/

namespace Sys2Proof.Machine

/-- The registers of the address map (R62). -/
inductive Reg where
  | cmd
  | status
  | cfg
  | inLen
  | param
  | candCount
  | resIdx
  | resFlen
  | resTs
  | resNsamp
deriving DecidableEq, Repr

/-- What an access of the right size and alignment reaches (R62). -/
inductive Loc where
  | reg (r : Reg)
  | ibuf (i : Nat)
  | samp (k : Nat)
  | candStart (i : Nat)
  | candLen (i : Nat)
deriving DecidableEq, Repr

/-- What a read gives: a value the rules fix, or one they leave open (R64, R72). -/
inductive ReadData where
  | exact (v : Word)
  | anyWord
  | anyByte
deriving DecidableEq, Repr

/-- The register region (R62, R63): the word-aligned addresses `0x00000 .. 0x00024`; a misaligned one is no register. -/
def regAt : Nat → Option Reg
  | 0x00000 => some .cmd
  | 0x00004 => some .status
  | 0x00008 => some .cfg
  | 0x0000C => some .inLen
  | 0x00010 => some .param
  | 0x00014 => some .candCount
  | 0x00018 => some .resIdx
  | 0x0001C => some .resFlen
  | 0x00020 => some .resTs
  | 0x00024 => some .resNsamp
  | _ => none

/-- The location an aligned word access reaches (R62, R63, R65, R66), none where it is refused. -/
def wordLoc (a : Nat) : Option Loc :=
  if a < 0x28 then (regAt a).map .reg
  else if 0x20000 ≤ a ∧ a ≤ 0x3FFFF ∧ a % 4 = 0 then some (.samp ((a - 0x20000) / 4))
  else if 0x80000 ≤ a ∧ a ≤ 0xFFFFF ∧ a % 4 = 0 then
    if (a - 0x80000) % 8 = 0 then some (.candStart ((a - 0x80000) / 8)) else some (.candLen ((a - 0x80000) / 8))
  else none

/-- The location a byte access reaches (R64), none where it is refused. -/
def byteLoc (p : Params) (a : Nat) : Option Loc :=
  if 0x10000 ≤ a ∧ a ≤ 0x1FFFF ∧ a - 0x10000 < p.ibufSize then some (.ibuf (a - 0x10000)) else none

/-- The location an access reaches; none where it is refused for its size, its alignment or its address (R63-R67). -/
def locate (p : Params) (a : Addr) : Size → Option Loc
  | .word => wordLoc a.toNat
  | .byte => byteLoc p a.toNat

/-- Whether a location accepts a write (R62, R64-R66, R70). -/
def Loc.writable : Loc → Bool
  | .reg .cmd => true
  | .reg .status => true
  | .reg .cfg => true
  | .reg .inLen => true
  | .ibuf _ => true
  | .reg _ => false
  | .samp _ => false
  | .candStart _ => false
  | .candLen _ => false

/-- A result read (R72): exact while idle, any value while BUSY = 1. -/
def State.result (s : State) (v : Word) : ReadData := if s.status.busy then .anyWord else .exact v

/-- What an accepted read gives (R64-R66, R69). -/
def readData (s : State) : Loc → ReadData
  | .reg .cmd => .exact 0
  | .reg .status => .exact s.status.word
  | .reg .cfg => .exact s.cfg.word
  | .reg .inLen => .exact (s.inLen.setWidth 32)
  | .reg .param => .exact (Params.word s.params)
  | .reg .candCount => s.result (s.candCount.setWidth 32)
  | .reg .resIdx => s.result (s.resIdx.setWidth 32)
  | .reg .resFlen => s.result (s.resFlen.setWidth 32)
  | .reg .resTs => s.result s.resTs
  | .reg .resNsamp => s.result (s.resNsamp.setWidth 32)
  | .ibuf i =>
    match Memory.read s.ibuf i with
    | some b => .exact (b.setWidth 32)
    | none => .anyByte
  | .samp k => s.result (if k < s.resNsamp.toNat then (s.sampleAt k).signExtend 32 else 0)
  | .candStart i => s.result (if i < s.candCount.toNat then (s.candAt i).start.setWidth 32 else 0)
  | .candLen i => s.result (if i < s.candCount.toNat then (s.candAt i).len.setWidth 32 else 0)

/-- The data word given to the HOST for the `n`-th draw (R64, R72). -/
def ReadData.value (n : Nat) : ReadData → Word
  | .exact v => v
  | .anyWord => Config.drawWord n
  | .anyByte => (Config.drawByte n).setWidth 32

/-- How many free values a read uses: each unspecified read draws its own (R72). -/
def ReadData.drawn : ReadData → Nat
  | .exact _ => 0
  | .anyWord => 1
  | .anyByte => 1

/-- The HOST gets a response. -/
def State.respond (s : State) (r : Response) : State := { s with log := r :: s.log }

/-- A free value has been used. -/
def State.advanceDraws (s : State) (n : Nat) : State := { s with draws := s.draws + n }

/-- Issue of a command word while idle: a legal word is latched (40_control.md R120), an illegal one completes at once with
BAD_CMD (R122). -/
def issue (v : Word) (s : State) : State :=
  match decode v with
  | .ok i => { s with status := s.status.issue, pend := some i }
  | .error _ => { s with status := s.status.badCmd }

/-- An accepted write while idle (20_memory.md R64, R70, R73). A location that is not writable is never written. -/
def writeIdle (l : Loc) (v : Word) (s : State) : State :=
  match l with
  | .reg .cmd => issue v s
  | .reg .cfg => ({ s with cfg := Cfg.ofWord v } : State).invalidate
  | .reg .inLen => ({ s with inLen := BitVec.ofNat 16 (min v.toNat s.params.ibufSize) } : State).invalidate
  | .ibuf i => ({ s with ibuf := Memory.write s.ibuf i (v.extractLsb' 0 8) } : State).invalidate
  | .reg .status => s
  | .reg _ => s
  | .samp _ => s
  | .candStart _ => s
  | .candLen _ => s

/-- An accepted write (R70, R71): STATUS takes its write at any time, the others only while idle. -/
def writeLoc (l : Loc) (v : Word) (s : State) : State :=
  if l = .reg .status then { s with status := s.status.clearSticky v }
  else if s.status.busy then s.ignoreBusy
  else writeIdle l v s

/-- A refused `Read` returns ERR and 0, a refused `Write` ERR; both set ACC_ERR (R68). -/
def refusal : Transaction → Response
  | .read _ _ => .read .err 0
  | .write _ _ _ => .write .err

/-- A HOST transaction (R61): refusal is decided first, from address, size and direction alone (60_exceptions.md R203). -/
def transact (t : Transaction) (s : State) : State :=
  match t with
  | .read a sz =>
    match locate s.params a sz with
    | none => s.refuseAccess.respond (refusal t)
    | some l =>
      (s.advanceDraws (readData s l).drawn).respond (.read .ok ((readData s l).value s.draws))
  | .write a sz v =>
    match locate s.params a sz with
    | none => s.refuseAccess.respond (refusal t)
    | some l => if l.writable then (writeLoc l v s).respond (.write .ok) else s.refuseAccess.respond (refusal t)

/-- The reset step (70_reset_and_hazards.md R230; 10_state.md R47, R48): every piece of state takes its reset value, the
parameters stay; the model's own fields are not state of the block (log 10). -/
def State.resetStep (s : State) : State :=
  { State.resetWith s.params with turns := s.turns, draws := s.draws, log := s.log }

end Sys2Proof.Machine
end

