-- ==== Sys2Proof/Machine/Step.lean ====
section
/-! DEFINITION. One step of FSX: the next turn of the schedule (spec/20_memory.md R79). -/

namespace Sys2Proof.Machine

/-- One step. With no turn left nothing more comes from outside, and a pending command completes (40_control.md R124;
log 2). -/
def step (s : State) : Host.Outcome State Fault Refusal :=
  match s.turns with
  | [] => engineStep s
  | .engine :: rest => engineStep { s with turns := rest }
  | .host t :: rest => .next (transact t { s with turns := rest })
  | .reset :: rest => .next (State.resetStep { s with turns := rest })

/-- The state in which the very next step runs the command of a table word (log 4). FSX fetches nothing (10_state.md
R22): a legal word is latched as its issue latches it (40_control.md R120) and the ENGINE moves next; an illegal one has
its whole effect at issue (R122), so the HOST's write of it to CMD, with the block idle, comes next. -/
def State.withFetchWord (s : State) (nbits w : Nat) : State :=
  match decode (tableWord nbits w) with
  | .ok i => { s with pend := some i, status := s.status.issue, turns := .engine :: s.turns }
  | .error _ =>
    { s with pend := none, status := { s.status with busy := false },
             turns := .host (.write 0x00000 .word (tableWord nbits w)) :: s.turns }

end Sys2Proof.Machine
end

