-- ==== Sys2Proof/Safety.lean ====
section
/-! DEFINITION. What a consistent state of FSX is (the invariants the spec states), and the groups of state that claims say
are unchanged. -/

namespace Sys2Proof.Machine

/-- The candidate table's first CAND_COUNT entries are the split of the capture as it now stands, at the delimiter as it
now stands: "the bytes of IBUF have not changed since that SCAN" (10_state.md R40; 20_memory.md R73). -/
def State.tableCurrent (s : State) : Bool :=
  match readCapture s with
  | .error _ => false
  | .ok bs =>
    decide (s.candTable.take s.candCount.toNat = split s.cfg.delim bs ∧
      s.candCount.toNat = (split s.cfg.delim bs).length)

/-- The invariant of every reachable state. -/
structure Inv (s : State) : Prop where
  /-- The parameter constraints (00_scope.md R7). -/
  params    : s.params.Valid
  /-- IBUF keeps its canonical form. -/
  ibufForm  : Memory.wf s.ibuf = true
  /-- IBUF has the cells `0 .. IBUF_SIZE-1` (10_state.md R23). -/
  ibufRange : ∀ c ∈ s.ibuf, c.1 < s.params.ibufSize
  /-- `IN_LEN <= IBUF_SIZE` (R24). -/
  inLen     : s.inLen.toNat ≤ s.params.ibufSize
  /-- BUSY is 1 exactly when PEND is not NONE (R30). -/
  busyPend  : s.status.busy = s.pend.isSome
  /-- While BUSY = 1, DONE, ODD and NOMINAL are 0 and CODE reads 0 (R31, R32; 40_control.md R120). -/
  busyClear : s.status.busy = true →
    s.status.done = false ∧ s.status.code = .ok ∧ s.status.odd = false ∧ s.status.nominal = false
  /-- The table is invalid (CAND_COUNT = 0) or current (R40). -/
  table     : s.candCount = 0 ∨ s.tableCurrent = true
  /-- `RES_NSAMP <= MAX_SAMP` (R43), and the samples it counts have been written. -/
  samples   : s.resNsamp.toNat ≤ s.params.maxSamp ∧ s.resNsamp.toNat ≤ s.resSamp.length

/-- The inputs of a command: parameters, IBUF read byte by byte, IN_LEN and CFG are the same (40_control.md R126). -/
def SameInputs (s t : State) : Prop :=
  t.params = s.params ∧ (∀ a, Memory.read t.ibuf a = Memory.read s.ibuf a) ∧ t.ibuf = s.ibuf ∧ t.inLen = s.inLen ∧
    t.cfg = s.cfg

/-- The candidate table is the same. -/
def SameTable (s t : State) : Prop :=
  t.candCount = s.candCount ∧ t.candTable = s.candTable

/-- Every result register is the same. -/
def SameResults (s t : State) : Prop :=
  t.resIdx = s.resIdx ∧ t.resFlen = s.resFlen ∧ t.resTs = s.resTs ∧ t.resNsamp = s.resNsamp ∧ t.resSamp = s.resSamp

/-- What the ENGINE leaves to issue, completion and the HOST: PEND, BUSY, DONE and the sticky bits, and the model's own
fields. -/
def SameControl (s t : State) : Prop :=
  t.pend = s.pend ∧ t.status.busy = s.status.busy ∧ t.status.done = s.status.done ∧
    t.status.busyErr = s.status.busyErr ∧ t.status.accErr = s.status.accErr ∧
    t.turns = s.turns ∧ t.draws = s.draws ∧ t.log = s.log

/-- The cells `a .. a+n-1` have been written since reset. -/
def Written (m : Memory) (a n : Nat) : Prop := ∀ j, j < n → (Memory.read m (a + j)).isSome = true

/-- The reads the address map accepts (20_memory.md R62-R66): aligned words of the register region and the two result
windows, single bytes of IBUF. -/
abbrev ReadAccepted (p : Params) (a : Nat) (sz : Size) : Prop :=
  (sz = .word ∧ a % 4 = 0 ∧ (a ≤ 0x27 ∨ (0x20000 ≤ a ∧ a ≤ 0x3FFFF) ∨ (0x80000 ≤ a ∧ a ≤ 0xFFFFF))) ∨
    (sz = .byte ∧ 0x10000 ≤ a ∧ a ≤ 0x1FFFF ∧ a - 0x10000 < p.ibufSize)

/-- The input writes the address map accepts (R64, R70): CFG, IN_LEN, a byte of IBUF. -/
abbrev InputWriteAccepted (p : Params) (a : Nat) (sz : Size) : Prop :=
  (sz = .word ∧ (a = 0x00008 ∨ a = 0x0000C)) ∨ (sz = .byte ∧ 0x10000 ≤ a ∧ a ≤ 0x1FFFF ∧ a - 0x10000 < p.ibufSize)

/-- The writes the address map accepts (R64, R70): CMD, STATUS and the input writes. -/
abbrev WriteAccepted (p : Params) (a : Nat) (sz : Size) : Prop :=
  (sz = .word ∧ (a = 0x00000 ∨ a = 0x00004)) ∨ InputWriteAccepted p a sz

/-- A 16-bit field of two bytes in byte order `bo` (20_memory.md R75): `lo` at the lower index. -/
def pairOf (bo : ByteOrder) (lo hi : Byte) : Half :=
  match bo with
  | .little => hi ++ lo
  | .big => lo ++ hi

/-- A 32-bit field of four bytes in byte order `bo` (20_memory.md R75), `b0` at the lowest index. -/
def quadOf (bo : ByteOrder) (b0 b1 b2 b3 : Byte) : Word :=
  match bo with
  | .little => b3 ++ b2 ++ b1 ++ b0
  | .big => b0 ++ b1 ++ b2 ++ b3

/-- R163: the payload length of a candidate, as the statements below use it. -/
def payloadOf (s : State) (idx : Half) : Nat :=
  if s.params.payloadOffset ≤ (s.candAt idx.toNat).len.toNat then
    (s.candAt idx.toNat).len.toNat - s.params.payloadOffset
  else 0

/-- What sample extraction of candidate `idx` leaves (R164, R165): `PLEN div 2` samples in stream order, the registers past
them kept, ODD and NOMINAL. -/
def SamplesExtracted (s t : State) (idx : Half) : Prop :=
  t.resNsamp.toNat = payloadOf s idx / 2 ∧
    (∀ k lo hi, k < payloadOf s idx / 2 →
      Memory.read s.ibuf ((s.candAt idx.toNat).start.toNat + s.params.payloadOffset + 2 * k) = some lo →
      Memory.read s.ibuf ((s.candAt idx.toNat).start.toNat + s.params.payloadOffset + 2 * k + 1) = some hi →
      t.sampleAt k = pairOf s.cfg.bo lo hi) ∧
    (∀ k, payloadOf s idx / 2 ≤ k → t.resSamp[k]? = s.resSamp[k]?) ∧
    t.status = { s.status with
      code := .ok
      odd := decide (payloadOf s idx % 2 = 1)
      nominal := decide (payloadOf s idx / 2 = 7) }

end Sys2Proof.Machine
end

