-- ==== Sys2Proof/Certificates/Slice0/Obligations.lean ====
section
/-! DEFINITION. The statements for the provers, from the numbered rules of spec/. -/

open Sys2Proof Sys2Proof.Machine

/-! ## Encoding (30_encoding.md) -/

/-- Words written out from the opcode map of R102, and both cases of an illegal word (R103). -/
def Obligations.SampleCommandWordsDecode : Prop :=
  decode 0x00000000 = .ok (.nop 0) ∧ decode 0xFFFF0000 = .ok (.nop 0xFFFF) ∧ decode 0x00000001 = .ok (.scan 0) ∧
    decode 0x00000002 = .ok (.decTs 0) ∧ decode 0x00020003 = .ok (.decSamp 2) ∧ decode 0x00010004 = .ok (.decFull 1) ∧
    decode 0x00000005 = .error (.reservedOp 5) ∧ decode 0x0000000F = .error (.reservedOp 15) ∧
    decode 0x00000014 = .error (.reservedBits 1)

/-- Decoding the encoding of any command gives it back, and a word that decodes is the encoding of what it decodes to:
legal words and commands correspond one to one (R100-R102). -/
def Obligations.DecodeAndEncodeAgree : Prop :=
  (∀ i, decode (encode i) = .ok i) ∧ ∀ v i, decode v = .ok i → encode i = v

/-- R102: "A word is a legal command exactly when OP is in this table and RSV = 0", with the full command words. -/
def Obligations.LegalWordsAreTheOpcodeMap : Prop :=
  (∀ v : Word, (∃ i, decode v = .ok i) ↔ (v.extractLsb' 0 4).toNat ≤ 4 ∧ v.extractLsb' 4 12 = 0) ∧
    ∀ idx : Half,
      decode ((idx.setWidth 32 <<< 16) ||| 0x0) = .ok (.nop idx) ∧
      decode ((idx.setWidth 32 <<< 16) ||| 0x1) = .ok (.scan idx) ∧
      decode ((idx.setWidth 32 <<< 16) ||| 0x2) = .ok (.decTs idx) ∧
      decode ((idx.setWidth 32 <<< 16) ||| 0x3) = .ok (.decSamp idx) ∧
      decode ((idx.setWidth 32 <<< 16) ||| 0x4) = .ok (.decFull idx)

/-! ## Issue and completion (40_control.md) -/

/-- R121: a turn of the ENGINE runs the pending command and completes it; a fault leaves no next state. -/
def Obligations.EngineTurnRunsPendingCommand : Prop :=
  ∀ (s : State) (i : Instr) (rest : List Turn), s.turns = .engine :: rest → s.pend = some i →
    step s =
      match exec i { s with turns := rest } with
      | .next t => .next { t with pend := none, status := { t.status with busy := false, done := true } }
      | .fault f => .fault f
      | .refused r => .refused r

/-- The model's scheduling (log 2, 3): with no turn left a pending command completes, and an ENGINE turn with nothing
pending, or an idle block with no turn left, changes no state of the block. -/
def Obligations.ScheduleWithoutEngineWork : Prop :=
  ∀ s : State,
    (s.turns = [] → step s = step { s with turns := [.engine] }) ∧
    (∀ rest, s.turns = .engine :: rest → s.pend = none → step s = .next { s with turns := rest }) ∧
    (s.turns = [] → s.pend = none → step s = .next s)

/-- R120: an accepted write of a legal command word to CMD, while idle and while busy. -/
def Obligations.IssueLatchesLegalCommand : Prop :=
  ∀ (s : State) (v : Word) (i : Instr) (rest : List Turn),
    s.turns = .host (.write 0x00000 .word v) :: rest → decode v = .ok i →
    (s.status.busy = false →
      step s = .next { s with
        turns := rest
        log := .write .ok :: s.log
        pend := some i
        status := { s.status with busy := true, done := false, code := .ok, odd := false, nominal := false } }) ∧
    (s.status.busy = true →
      step s = .next { s with
        turns := rest
        log := .write .ok :: s.log
        status := { s.status with busyErr := true } })

/-- R122: an illegal word written to CMD while idle completes at once with BAD_CMD and changes nothing else. -/
def Obligations.IllegalWordCompletesWithBadCmd : Prop :=
  ∀ (s : State) (v : Word) (rest : List Turn),
    s.turns = .host (.write 0x00000 .word v) :: rest → s.status.busy = false →
    (5 ≤ (v.extractLsb' 0 4).toNat ∨ v.extractLsb' 4 12 ≠ 0) →
    step s = .next { s with
      turns := rest
      log := .write .ok :: s.log
      status := { s.status with done := true, code := .badCmd, odd := false, nominal := false } }

/-- A word of the opcode table, placed where the next step takes its command from, is the command that step runs (log 4);
an illegal word ends with BAD_CMD. -/
def Obligations.PlacedWordRunsNext : Prop :=
  ∀ (s : State) (w : Nat),
    (∀ i, decodeTableWord 32 w = some i →
      step (s.withFetchWord 32 w) =
        match exec i { s with pend := some i, status := s.status.issue } with
        | .next t => .next { t with pend := none, status := { t.status with busy := false, done := true } }
        | .fault f => .fault f
        | .refused r => .refused r) ∧
    (decodeTableWord 32 w = none →
      ∃ t, step (s.withFetchWord 32 w) = .next t ∧ t.status.code = .badCmd ∧ t.status.done = true ∧ t.turns = s.turns)

/-- R123: NOP sets CODE to OK and touches nothing else, whatever its IDX; its words are those that match 0x00000000 under
0x0000FFFF; issued and completed from an idle block it leaves DONE = 1, CODE = OK, ODD = NOMINAL = 0 and the sticky bits
as they were; written while BUSY = 1 it only sets BUSY_ERR. -/
def Obligations.NopOnlySetsCodeOk : Prop :=
  (∀ (idx : Half) (s : State), exec (.nop idx) s = .next { s with status := { s.status with code := .ok } }) ∧
    ∀ (v : Word) (s : State) (rest : List Turn), v &&& 0x0000FFFF = 0x00000000 →
      (s.status.busy = false → s.pend = none → s.turns = .host (.write 0x00000 .word v) :: .engine :: rest →
        Host.Core.run core 2 s = .next { s with
          turns := rest
          log := .write .ok :: s.log
          status := { s.status with done := true, code := .ok, odd := false, nominal := false } }) ∧
      (s.status.busy = true → s.turns = .host (.write 0x00000 .word v) :: rest →
        step s = .next { s with
          turns := rest, log := .write .ok :: s.log, status := { s.status with busyErr := true } })

/-! ## SCAN (41_scanner.md) -/

/-- R140: SCAN of a capture whose bytes have all been written completes with OK and leaves exactly the split: none for the
empty capture; else candidates in buffer order from 0 to IN_LEN, one delimiter between each two and none inside any.
Entries past CAND_COUNT and every other piece of state keep their values. -/
def Obligations.ScanWritesTheSplit : Prop :=
  ∀ (idx : Half) (s : State), Written s.ibuf 0 s.inLen.toNat →
    ∃ t, exec (.scan idx) s = .next t ∧ t.status = { s.status with code := .ok } ∧ SameInputs s t ∧ SameResults s t ∧
      SameControl s t ∧
      (∀ i, t.candCount.toNat ≤ i → t.candTable[i]? = s.candTable[i]?) ∧
      (s.inLen = 0 → t.candCount = 0) ∧
      (s.inLen ≠ 0 →
        0 < t.candCount.toNat ∧ (t.candAt 0).start = 0 ∧
        (t.candAt (t.candCount.toNat - 1)).start.toNat + (t.candAt (t.candCount.toNat - 1)).len.toNat = s.inLen.toNat ∧
        (∀ j, j + 1 < t.candCount.toNat →
          (t.candAt (j + 1)).start.toNat = (t.candAt j).start.toNat + (t.candAt j).len.toNat + 1 ∧
          Memory.read s.ibuf ((t.candAt j).start.toNat + (t.candAt j).len.toNat) = some s.cfg.delim) ∧
        (∀ j k, j < t.candCount.toNat → k < (t.candAt j).len.toNat →
          Memory.read s.ibuf ((t.candAt j).start.toNat + k) ≠ some s.cfg.delim))

/-- 41_scanner.md section 2, the spec's own inference: CAND_COUNT is 0 for the empty capture, else one more than the
delimiters in it, and never more than MAX_CANDS. -/
def Obligations.ScanCountsDelimiters : Prop :=
  ∀ (idx : Half) (s t : State), exec (.scan idx) s = .next t →
    (t.candCount.toNat =
      if s.inLen = 0 then 0
      else 1 + ((List.range s.inLen.toNat).filter fun a => decide (Memory.read s.ibuf a = some s.cfg.delim)).length) ∧
    (s.inLen.toNat ≤ s.params.ibufSize → t.candCount.toNat ≤ s.params.maxCands)

/-- 41_scanner.md section 2, the spec's own inference: the candidates' slices in table order, joined with one delimiter
byte between each two, are the capture. -/
def Obligations.ScanRoundTrip : Prop :=
  ∀ (idx : Half) (s t : State), exec (.scan idx) s = .next t →
    List.intercalate [some s.cfg.delim]
      ((List.range t.candCount.toNat).map fun j =>
        (List.range (t.candAt j).len.toNat).map fun k => Memory.read s.ibuf ((t.candAt j).start.toNat + k)) =
    (List.range s.inLen.toNat).map (Memory.read s.ibuf)

/-- R85, in the model's terms: a SCAN faults with UNINIT_READ exactly when a cell of the capture has not been written, at
the first such cell. -/
def Obligations.ScanFaultsAtFirstUnwrittenCell : Prop :=
  ∀ (idx : Half) (s : State) (f : Fault), exec (.scan idx) s = .fault f ↔
    ∃ a, a < s.inLen.toNat ∧ f = .uninitRead a ∧ Memory.read s.ibuf a = none ∧
      ∀ b, b < a → Memory.read s.ibuf b ≠ none

/-- A second run of the same command on the state the first left changes nothing (41_scanner.md section 2, 42_extractor.md
section 4: the spec's own inferences), for SCAN also under another IDX (30_encoding.md R104). -/
def Obligations.CommandsAreIdempotent : Prop :=
  (∀ (i : Instr) (s t : State), exec i s = .next t → exec i t = .next t) ∧
    ∀ (i j : Half) (s : State), exec (.scan i) s = exec (.scan j) s ∧ exec (.nop i) s = exec (.nop j) s

/-! ## The decode commands (42_extractor.md) -/

/-- R160: an index at or above CAND_COUNT ends each decode command with BAD_INDEX and nothing else written; below it, a
decode that completes leaves RES_IDX = idx and RES_FLEN = CAND_LEN[idx]. -/
def Obligations.LookupDecidesBadIndex : Prop :=
  ∀ (idx : Half) (s : State) (i : Instr), i = .decTs idx ∨ i = .decSamp idx ∨ i = .decFull idx →
    (s.candCount.toNat ≤ idx.toNat → exec i s = .next { s with status := { s.status with code := .badIndex } }) ∧
    (idx.toNat < s.candCount.toNat → ∀ t, exec i s = .next t →
      t.resIdx = idx ∧ t.resFlen = (s.candAt idx.toNat).len ∧ t.status.code ≠ .badIndex)

/-- R161: DEC_TS and DEC_FULL end with TOO_SHORT exactly when the candidate is shorter than 10 bytes, and DEC_SAMP never
does; a TOO_SHORT writes RES_IDX, RES_FLEN, RES_TS = 0, RES_NSAMP = 0, CODE and nothing else, whatever IBUF holds. -/
def Obligations.LengthValidator : Prop :=
  ∀ (idx : Half) (s : State),
    (idx.toNat < s.candCount.toNat → ∀ i, i = .decTs idx ∨ i = .decFull idx →
      ((s.candAt idx.toNat).len.toNat < 10 →
        exec i s = .next { s with
          resIdx := idx
          resFlen := (s.candAt idx.toNat).len
          resTs := 0
          resNsamp := 0
          status := { s.status with code := .tooShort } }) ∧
      (10 ≤ (s.candAt idx.toNat).len.toNat → ∀ t, exec i s = .next t → t.status.code = .ok)) ∧
    (∀ t, exec (.decSamp idx) s = .next t → t.status.code ≠ .tooShort) ∧
    (idx.toNat < s.candCount.toNat → ∀ t, exec (.decSamp idx) s = .next t → t.status.code = .ok)

/-- R166 and R162: DEC_TS of a candidate of at least 10 bytes, its bytes 6..9 written, completes with OK, the timestamp in
RES_TS in the byte order of CFG.BO and RES_NSAMP = 0; nothing else changes. -/
def Obligations.DecTsExtractsTimestamp : Prop :=
  ∀ (idx : Half) (s : State) (b0 b1 b2 b3 : Byte), idx.toNat < s.candCount.toNat →
    10 ≤ (s.candAt idx.toNat).len.toNat →
    Memory.read s.ibuf ((s.candAt idx.toNat).start.toNat + 6) = some b0 →
    Memory.read s.ibuf ((s.candAt idx.toNat).start.toNat + 7) = some b1 →
    Memory.read s.ibuf ((s.candAt idx.toNat).start.toNat + 8) = some b2 →
    Memory.read s.ibuf ((s.candAt idx.toNat).start.toNat + 9) = some b3 →
    exec (.decTs idx) s = .next { s with
      resIdx := idx
      resFlen := (s.candAt idx.toNat).len
      resTs := quadOf s.cfg.bo b0 b1 b2 b3
      resNsamp := 0
      status := { s.status with code := .ok } }

/-- R167 with R163, R164 and R165: DEC_SAMP of a candidate whose payload's 2-byte groups have been written completes with OK
whatever its length: the samples, RES_TS = 0, ODD and NOMINAL; the inputs, the table and the control state are kept. -/
def Obligations.DecSampExtractsSamples : Prop :=
  ∀ (idx : Half) (s : State), idx.toNat < s.candCount.toNat →
    Written s.ibuf ((s.candAt idx.toNat).start.toNat + s.params.payloadOffset) (2 * (payloadOf s idx / 2)) →
    ∃ t, exec (.decSamp idx) s = .next t ∧ t.resIdx = idx ∧ t.resFlen = (s.candAt idx.toNat).len ∧ t.resTs = 0 ∧
      SamplesExtracted s t idx ∧ SameInputs s t ∧ SameTable s t ∧ SameControl s t

/-- R168 with R162-R165: DEC_FULL of a candidate of at least 10 bytes, its timestamp and its payload's groups written,
completes with OK: timestamp and samples; the inputs, the table and the control state are kept. -/
def Obligations.DecFullExtractsFrame : Prop :=
  ∀ (idx : Half) (s : State) (b0 b1 b2 b3 : Byte), idx.toNat < s.candCount.toNat →
    10 ≤ (s.candAt idx.toNat).len.toNat →
    Memory.read s.ibuf ((s.candAt idx.toNat).start.toNat + 6) = some b0 →
    Memory.read s.ibuf ((s.candAt idx.toNat).start.toNat + 7) = some b1 →
    Memory.read s.ibuf ((s.candAt idx.toNat).start.toNat + 8) = some b2 →
    Memory.read s.ibuf ((s.candAt idx.toNat).start.toNat + 9) = some b3 →
    Written s.ibuf ((s.candAt idx.toNat).start.toNat + s.params.payloadOffset) (2 * (payloadOf s idx / 2)) →
    ∃ t, exec (.decFull idx) s = .next t ∧ t.resIdx = idx ∧ t.resFlen = (s.candAt idx.toNat).len ∧
      t.resTs = quadOf s.cfg.bo b0 b1 b2 b3 ∧
      SamplesExtracted s t idx ∧ SameInputs s t ∧ SameTable s t ∧ SameControl s t

/-- 42_extractor.md section 4, the spec's own inference: on a candidate of at least 10 bytes DEC_FULL completes where DEC_TS
and DEC_SAMP do, with the timestamp of the one and the samples and payload status of the other; on a shorter one it ends
with TOO_SHORT where DEC_SAMP, completing, ends with OK. -/
def Obligations.FullDecodeEqualsItsParts : Prop :=
  ∀ (idx : Half) (s a b : State), idx.toNat < s.candCount.toNat →
    exec (.decTs idx) s = .next a → exec (.decSamp idx) s = .next b →
    ∃ t, exec (.decFull idx) s = .next t ∧
      (10 ≤ (s.candAt idx.toNat).len.toNat →
        t.resTs = a.resTs ∧ t.resNsamp = b.resNsamp ∧ t.resSamp = b.resSamp ∧ t.status = b.status) ∧
      ((s.candAt idx.toNat).len.toNat < 10 → t.status.code = .tooShort ∧ b.status.code = .ok)

/-- R171 and 42_extractor.md section 4: a decode command depends on IBUF only through bytes 6..9 of its candidate and its
payload's 2-byte groups. Replacing every other byte (the undecoded ones, an odd trailing byte, all of another candidate)
changes neither its outcome nor its results. -/
def Obligations.DecodeDependsOnlyOnItsFields : Prop :=
  ∀ (idx : Half) (s : State) (m : Memory) (i : Instr), i = .decTs idx ∨ i = .decSamp idx ∨ i = .decFull idx →
    (∀ j, 6 ≤ j → j < 10 →
      Memory.read m ((s.candAt idx.toNat).start.toNat + j) =
        Memory.read s.ibuf ((s.candAt idx.toNat).start.toNat + j)) →
    (∀ j, j < 2 * (payloadOf s idx / 2) →
      Memory.read m ((s.candAt idx.toNat).start.toNat + s.params.payloadOffset + j) =
        Memory.read s.ibuf ((s.candAt idx.toNat).start.toNat + s.params.payloadOffset + j)) →
    exec i { s with ibuf := m } =
      match exec i s with
      | .next t => .next { t with ibuf := m }
      | .fault f => .fault f
      | .refused r => .refused r

/-- 10_state.md R40 and 42_extractor.md section 4: in a consistent state every candidate counted by CAND_COUNT lies in the
capture, the capture in IBUF, and every byte of a candidate has been written, so that no decode reads outside. -/
def Obligations.CandidatesLieInTheCapture : Prop :=
  ∀ s : State, Inv s → ∀ i, i < s.candCount.toNat →
    (s.candAt i).start.toNat + (s.candAt i).len.toNat ≤ s.inLen.toNat ∧ s.inLen.toNat ≤ s.params.ibufSize ∧
      Written s.ibuf (s.candAt i).start.toNat (s.candAt i).len.toNat

/-- R200 for the decode commands: in a consistent state each of them completes, whatever its index and whatever IBUF
holds; none meets an unwritten byte. -/
def Obligations.DecodeNeverFaults : Prop :=
  ∀ s : State, Inv s → ∀ idx : Half,
    (∃ t, exec (.decTs idx) s = .next t) ∧ (∃ t, exec (.decSamp idx) s = .next t) ∧ ∃ t, exec (.decFull idx) s = .next t

/-- A decode command that does meet an unwritten cell (only in a state no run reaches) faults and names the first one:
DEC_TS one of its candidate's bytes 6..9 (R85). -/
def Obligations.DecTsFaultsAtFirstUnwrittenCell : Prop :=
  ∀ (idx : Half) (s : State) (f : Fault), exec (.decTs idx) s = .fault f ↔
    idx.toNat < s.candCount.toNat ∧ 10 ≤ (s.candAt idx.toNat).len.toNat ∧
      ∃ j, j < 4 ∧ f = .uninitRead ((s.candAt idx.toNat).start.toNat + 6 + j) ∧
        Memory.read s.ibuf ((s.candAt idx.toNat).start.toNat + 6 + j) = none ∧
        ∀ k, k < j → Memory.read s.ibuf ((s.candAt idx.toNat).start.toNat + 6 + k) ≠ none

/-- R75: the two byte orders, as the sums the rule writes. -/
def Obligations.AssembleIsTheWeightedSum : Prop :=
  ∀ bs : List Byte,
    assemble bs .little = ∑ j ∈ Finset.range bs.length, (bs.getD j 0).toNat * 2 ^ (8 * j) ∧
    assemble bs .big = ∑ j ∈ Finset.range bs.length, (bs.getD j 0).toNat * 2 ^ (8 * (bs.length - 1 - j))

/-- 40_control.md section 1, the footprint table (the spec's own inference): what each command leaves unchanged. -/
def Obligations.CommandFootprint : Prop :=
  ∀ (i : Instr) (s t : State), exec i s = .next t →
    SameInputs s t ∧ SameControl s t ∧
      ((∀ idx, i ≠ .scan idx) → SameTable s t) ∧
      ((∃ idx, i = .nop idx ∨ i = .scan idx) → SameResults s t) ∧
      ((∃ idx, i = .nop idx ∨ i = .scan idx ∨ i = .decTs idx) →
        t.status.odd = s.status.odd ∧ t.status.nominal = s.status.nominal ∧ t.resSamp = s.resSamp)

/-! ## Host access (20_memory.md, 10_state.md) -/

/-- R68: a refused access returns ERR (a read: data 0), sets ACC_ERR and changes nothing else, whatever BUSY is; an
accepted one returns OK. What is refused: R63-R67 and the read-only locations of R70. -/
def Obligations.RefusedAccessSetsAccErrOnly : Prop :=
  ∀ (s : State) (rest : List Turn) (a : Addr) (sz : Size) (v : Word),
    (s.turns = .host (.read a sz) :: rest →
      (¬ReadAccepted s.params a.toNat sz →
        step s = .next { s with
          turns := rest, log := .read .err 0 :: s.log, status := { s.status with accErr := true } }) ∧
      (ReadAccepted s.params a.toNat sz → ∃ t d, step s = .next t ∧ t.log = .read .ok d :: s.log)) ∧
    (s.turns = .host (.write a sz v) :: rest →
      (¬WriteAccepted s.params a.toNat sz →
        step s = .next { s with
          turns := rest, log := .write .err :: s.log, status := { s.status with accErr := true } }) ∧
      (WriteAccepted s.params a.toNat sz → ∃ t, step s = .next t ∧ t.log = .write .ok :: s.log))

/-- R69: what a read of each register returns, idle and busy; nothing but the model's own fields changes. -/
def Obligations.RegisterReads : Prop :=
  ∀ (s : State) (rest : List Turn) (a : Addr), s.turns = .host (.read a .word) :: rest →
    let gives := fun v : Word => Host.Outcome.next { s with turns := rest, log := .read .ok v :: s.log }
    let draws : Host.Outcome State Fault Refusal := .next { s with
      turns := rest, draws := s.draws + 1, log := .read .ok (Config.drawWord s.draws) :: s.log }
    let busy := s.status.busy
    (a = 0x00000 → step s = gives 0) ∧
    (a = 0x00004 → step s = gives s.status.word) ∧
    (a = 0x00008 → step s = gives (0#23 ++ s.cfg.bo.bit ++ s.cfg.delim)) ∧
    (a = 0x0000C → step s = gives (s.inLen.setWidth 32)) ∧
    (a = 0x00010 → step s = gives (Params.word s.params)) ∧
    (a = 0x00014 → step s = if busy then draws else gives (s.candCount.setWidth 32)) ∧
    (a = 0x00018 → step s = if busy then draws else gives (s.resIdx.setWidth 32)) ∧
    (a = 0x0001C → step s = if busy then draws else gives (s.resFlen.setWidth 32)) ∧
    (a = 0x00020 → step s = if busy then draws else gives s.resTs) ∧
    (a = 0x00024 → step s = if busy then draws else gives (s.resNsamp.setWidth 32))

/-- R64: the IBUF window. A read at any BUSY returns the byte, or any byte where the cell is UNINIT; a write while idle
stores data[7:0] in that cell alone and sets CAND_COUNT to 0, while busy it only sets BUSY_ERR; the other sizes and the
indices at or above IBUF_SIZE are refused. -/
def Obligations.IbufWindow : Prop :=
  ∀ (s : State) (rest : List Turn) (a : Addr) (v : Word), 0x10000 ≤ a.toNat → a.toNat ≤ 0x1FFFF →
    (a.toNat - 0x10000 < s.params.ibufSize →
      (s.turns = .host (.read a .byte) :: rest →
        (∀ b, Memory.read s.ibuf (a.toNat - 0x10000) = some b →
          step s = .next { s with turns := rest, log := .read .ok (b.setWidth 32) :: s.log }) ∧
        (Memory.read s.ibuf (a.toNat - 0x10000) = none →
          step s = .next { s with
            turns := rest
            draws := s.draws + 1
            log := .read .ok ((Config.drawByte s.draws).setWidth 32) :: s.log })) ∧
      (s.turns = .host (.write a .byte v) :: rest →
        (s.status.busy = false →
          ∃ m, step s = .next { s with turns := rest, log := .write .ok :: s.log, ibuf := m, candCount := 0 } ∧
            Memory.read m (a.toNat - 0x10000) = some (v.extractLsb' 0 8) ∧
            ∀ j, j ≠ a.toNat - 0x10000 → Memory.read m j = Memory.read s.ibuf j) ∧
        (s.status.busy = true →
          step s = .next { s with
            turns := rest, log := .write .ok :: s.log, status := { s.status with busyErr := true } }))) ∧
    (∀ sz, sz = .word ∨ s.params.ibufSize ≤ a.toNat - 0x10000 →
      (s.turns = .host (.read a sz) :: rest →
        step s = .next { s with
          turns := rest, log := .read .err 0 :: s.log, status := { s.status with accErr := true } }) ∧
      (s.turns = .host (.write a sz v) :: rest →
        step s = .next { s with
          turns := rest, log := .write .err :: s.log, status := { s.status with accErr := true } }))

/-- R65: the SAMP window. An aligned word read returns any word while busy; idle, sample k sign-extended (as integers: the
signed reading is kept) if k < RES_NSAMP, else 0. Every other access is refused. -/
def Obligations.SampWindowReads : Prop :=
  ∀ (s : State) (rest : List Turn) (a : Addr), 0x20000 ≤ a.toNat → a.toNat ≤ 0x3FFFF →
    (s.turns = .host (.read a .word) :: rest → a.toNat % 4 = 0 →
      (s.status.busy = true → step s = .next { s with
        turns := rest, draws := s.draws + 1, log := .read .ok (Config.drawWord s.draws) :: s.log }) ∧
      (s.status.busy = false → ∃ d : Word,
        step s = .next { s with turns := rest, log := .read .ok d :: s.log } ∧
        d.toInt =
          if (a.toNat - 0x20000) / 4 < s.resNsamp.toNat then (s.sampleAt ((a.toNat - 0x20000) / 4)).toInt
          else 0)) ∧
    (∀ sz v,
      (s.turns = .host (.read a sz) :: rest → sz = .byte ∨ a.toNat % 4 ≠ 0 →
        step s = .next { s with
          turns := rest, log := .read .err 0 :: s.log, status := { s.status with accErr := true } }) ∧
      (s.turns = .host (.write a sz v) :: rest →
        step s = .next { s with
          turns := rest, log := .write .err :: s.log, status := { s.status with accErr := true } }))

/-- R66: the CAND window. An aligned word read returns any word while busy; idle, START at offset 0 and LEN at offset 4 of
entry i, zero-extended, if i < CAND_COUNT, else 0. Every other access is refused. -/
def Obligations.CandWindowReads : Prop :=
  ∀ (s : State) (rest : List Turn) (a : Addr), 0x80000 ≤ a.toNat →
    (s.turns = .host (.read a .word) :: rest → a.toNat % 4 = 0 →
      (s.status.busy = true → step s = .next { s with
        turns := rest, draws := s.draws + 1, log := .read .ok (Config.drawWord s.draws) :: s.log }) ∧
      (s.status.busy = false → ∃ d : Word,
        step s = .next { s with turns := rest, log := .read .ok d :: s.log } ∧
        d.toNat =
          if (a.toNat - 0x80000) / 8 < s.candCount.toNat then
            if (a.toNat - 0x80000) % 8 = 0 then (s.candAt ((a.toNat - 0x80000) / 8)).start.toNat
            else (s.candAt ((a.toNat - 0x80000) / 8)).len.toNat
          else 0)) ∧
    (∀ sz v,
      (s.turns = .host (.read a sz) :: rest → sz = .byte ∨ a.toNat % 4 ≠ 0 →
        step s = .next { s with
          turns := rest, log := .read .err 0 :: s.log, status := { s.status with accErr := true } }) ∧
      (s.turns = .host (.write a sz v) :: rest →
        step s = .next { s with
          turns := rest, log := .write .err :: s.log, status := { s.status with accErr := true } }))

/-- R71: an accepted write to CMD, CFG, IN_LEN or an IBUF byte while BUSY = 1 changes nothing except BUSY_ERR; a word
written to CMD is not decoded (60_exceptions.md R203). -/
def Obligations.WritesWhileBusyAreIgnored : Prop :=
  ∀ (s : State) (rest : List Turn) (a : Addr) (sz : Size) (v : Word),
    s.turns = .host (.write a sz v) :: rest → s.status.busy = true →
    (a = 0x00000 ∧ sz = .word ∨ InputWriteAccepted s.params a.toNat sz) →
    step s = .next { s with turns := rest, log := .write .ok :: s.log, status := { s.status with busyErr := true } }

/-- R70 for CFG with R25 and R28: an idle write takes DELIM from bits 7:0 and BO from bit 8, ignores bits 31:9 and sets
CAND_COUNT to 0; the next read of CFG gives the written bits 8:0 and zeros. -/
def Obligations.CfgWriteReadsBack : Prop :=
  ∀ (s : State) (rest : List Turn) (v : Word), s.status.busy = false →
    s.turns = .host (.write 0x00008 .word v) :: .host (.read 0x00008 .word) :: rest →
    ∃ c : Cfg, c.delim = v.extractLsb' 0 8 ∧ c.bo = (if v.getLsbD 8 then .big else .little) ∧
      Host.Core.run core 2 s = .next { s with
        turns := rest
        cfg := c
        candCount := 0
        log := .read .ok (v &&& 0x1FF) :: .write .ok :: s.log }

/-- R70 for IN_LEN with R24: an idle write stores the minimum of the full 32-bit value and IBUF_SIZE, and sets CAND_COUNT
to 0; nothing else changes. -/
def Obligations.InLenWriteClamps : Prop :=
  ∀ (s : State) (rest : List Turn) (v : Word), s.params.Valid → s.status.busy = false →
    s.turns = .host (.write 0x0000C .word v) :: rest →
    ∃ n : Half, n.toNat = min v.toNat s.params.ibufSize ∧
      step s = .next { s with turns := rest, log := .write .ok :: s.log, inLen := n, candCount := 0 }

/-- R73: every accepted write with BUSY = 0 to CFG, IN_LEN or an IBUF byte sets CAND_COUNT to 0, even where the value written
is the old one, and changes nothing but the field written and CAND_COUNT; every decode command then ends with BAD_INDEX. -/
def Obligations.InputWriteInvalidatesTable : Prop :=
  ∀ (s : State) (rest : List Turn) (a : Addr) (sz : Size) (v : Word),
    s.turns = .host (.write a sz v) :: rest → s.status.busy = false → InputWriteAccepted s.params a.toNat sz →
    ∃ t, step s = .next t ∧ t.candCount = 0 ∧
      t = { s with
        turns := rest, log := .write .ok :: s.log, candCount := 0, cfg := t.cfg, inLen := t.inLen, ibuf := t.ibuf } ∧
      (a ≠ 0x00008 → t.cfg = s.cfg) ∧ (a ≠ 0x0000C → t.inLen = s.inLen) ∧ (sz = .word → t.ibuf = s.ibuf) ∧
      ∀ idx i, i = .decTs idx ∨ i = .decSamp idx ∨ i = .decFull idx →
        exec i t = .next { t with status := { t.status with code := .badIndex } }

/-- R235: after an accepted input write, a decode command issued before the next SCAN completes with BAD_INDEX and keeps the
results. -/
def Obligations.DecodeAfterInputWriteIsBadIndex : Prop :=
  ∀ (s : State) (rest : List Turn) (a : Addr) (sz : Size) (v : Word) (i : Instr) (idx : Half),
    i = .decTs idx ∨ i = .decSamp idx ∨ i = .decFull idx →
    s.turns = .host (.write a sz v) :: .host (.write 0x00000 .word (encode i)) :: .engine :: rest →
    s.status.busy = false → InputWriteAccepted s.params a.toNat sz →
    ∃ t, Host.Core.run core 3 s = .next t ∧ t.status.code = .badIndex ∧ t.status.done = true ∧ t.status.busy = false ∧
      t.pend = none ∧ t.candCount = 0 ∧ SameResults s t

/-- R37: a write to STATUS clears the sticky bits its bits 16 and 17 name, at any BUSY, and does nothing else. -/
def Obligations.StatusWriteClearsStickyBits : Prop :=
  ∀ (s : State) (rest : List Turn) (v : Word), s.turns = .host (.write 0x00004 .word v) :: rest →
    step s = .next { s with
      turns := rest
      log := .write .ok :: s.log
      status := { s.status with
        busyErr := if v.getLsbD 16 then false else s.status.busyErr
        accErr := if v.getLsbD 17 then false else s.status.accErr } }

/-- 10_state.md R35, R36: a sticky bit goes from 1 to 0 only by the HOST's write of 1 to it or by a reset; no command
clears it. -/
def Obligations.StickyBitsStayUntilCleared : Prop :=
  ∀ s t : State, step s = .next t →
    (s.status.busyErr = true → t.status.busyErr = false →
      (∃ rest, s.turns = .reset :: rest) ∨
        ∃ v rest, s.turns = .host (.write 0x00004 .word v) :: rest ∧ v.getLsbD 16 = true) ∧
    (s.status.accErr = true → t.status.accErr = false →
      (∃ rest, s.turns = .reset :: rest) ∨
        ∃ v rest, s.turns = .host (.write 0x00004 .word v) :: rest ∧ v.getLsbD 17 = true)

/-- The STATUS word, bit by bit, as the table of 10_state.md section 4 lays it out, with the code numbers of
60_exceptions.md R201. -/
def Obligations.StatusWordLayout : Prop :=
  ∀ t : Status,
    t.word.getLsbD 0 = t.busy ∧ t.word.getLsbD 1 = t.done ∧ t.word.extractLsb' 2 2 = 0 ∧
    (t.word.extractLsb' 4 4).toNat =
      (match t.code with | .ok => 0 | .tooShort => 1 | .badIndex => 2 | .badCmd => 3) ∧
    t.word.getLsbD 8 = t.odd ∧ t.word.getLsbD 9 = t.nominal ∧ t.word.extractLsb' 10 6 = 0 ∧
    t.word.getLsbD 16 = t.busyErr ∧ t.word.getLsbD 17 = t.accErr ∧ t.word.extractLsb' 18 14 = 0

/-- R38: PARAM holds the instance's parameters, and a write to it is refused. -/
def Obligations.ParamRegister : Prop :=
  ∀ (s : State) (rest : List Turn), s.params.Valid →
    (s.turns = .host (.read 0x00010 .word) :: rest →
      ∃ w : Word, step s = .next { s with turns := rest, log := .read .ok w :: s.log } ∧
        (w.extractLsb' 0 16).toNat = s.params.ibufSize ∧ (w.extractLsb' 16 8).toNat = s.params.payloadOffset ∧
        (w.extractLsb' 24 8).toNat = 7) ∧
    ∀ v, s.turns = .host (.write 0x00010 .word v) :: rest →
      step s = .next { s with
        turns := rest, log := .write .err :: s.log, status := { s.status with accErr := true } }

/-! ## Reset (70_reset_and_hazards.md, 10_state.md) -/

/-- R230 with R47 and R48: a reset step, at any state, leaves every piece of state at its reset value and the parameters as
they were; a pending command is dropped. -/
def Obligations.ResetStepGivesResetValues : Prop :=
  ∀ (s : State) (rest : List Turn), s.turns = .reset :: rest →
    ∃ t, step s = .next t ∧ t.params = s.params ∧ (∀ a, Memory.read t.ibuf a = none) ∧ t.inLen = 0 ∧
      t.cfg.delim = 0x3A ∧ t.cfg.bo = .little ∧ t.status.word = 0 ∧ t.pend = none ∧ t.candCount = 0 ∧
      t.resIdx = 0 ∧ t.resFlen = 0 ∧ t.resTs = 0 ∧ t.resNsamp = 0 ∧ t.turns = rest

/-- The state right after reset holds the values of 10_state.md R47; its parameters are the reference values (log 8) and it
has no turn scheduled (log 1), which are the model's choices. -/
def Obligations.ResetStateHoldsResetValues : Prop :=
  (∀ a, Memory.read State.reset.ibuf a = none) ∧ State.reset.inLen = 0 ∧ State.reset.cfg.word = 0x3A ∧
    State.reset.status.word = 0 ∧ State.reset.pend = none ∧ State.reset.candCount = 0 ∧ State.reset.resIdx = 0 ∧
    State.reset.resFlen = 0 ∧ State.reset.resTs = 0 ∧ State.reset.resNsamp = 0 ∧ State.reset.params = ⟨4096, 10⟩ ∧
    State.reset.turns = []

/-! ## The whole machine -/

/-- The invariant holds after reset, at every valid choice of the parameters. -/
def Obligations.ResetStatesAreConsistent : Prop :=
  ∀ p : Params, p.Valid → Inv (State.resetWith p)

/-- Every step of every agent keeps the invariant: IBUF's canonical form and bounds, IN_LEN's bound (R24), BUSY exactly when
a command is pending (R30), the per-command fields clear while busy (R31, R32), the candidate table invalid or current
(R40), RES_NSAMP's bound (R43). -/
def Obligations.StepKeepsConsistency : Prop :=
  ∀ s t : State, Inv s → step s = .next t → Inv t

/-- R200: from a consistent state every step has a next state, but for one case: the ENGINE completes a SCAN whose capture
holds an unwritten cell, and the model faults at the first such cell. That the ENGINE completes it also where no turn is
left (`s.turns = []`) is the model's choice (log 2). -/
def Obligations.OnlyScanOfUnwrittenBytesFaults : Prop :=
  ∀ s : State, Inv s →
    (∃ t, step s = .next t) ∨
      ∃ idx a, s.pend = some (.scan idx) ∧ (s.turns = [] ∨ ∃ rest, s.turns = .engine :: rest) ∧
        a < s.inLen.toNat ∧ Memory.read s.ibuf a = none ∧ (∀ b, b < a → Memory.read s.ibuf b ≠ none) ∧
        step s = .fault (.uninitRead a)

/-- The model's weak fairness (40_control.md R124, which excludes resets; log 2), for a run one step longer than the turns
left. It ends with no command pending, whatever the turns were. A command pending at its start, with no reset among the
turns, is run and completed on the way: after some `k` steps the same command is still pending, `exec` of it has a next
state `v`, and the next step of the run is `v` completed; and DONE = 1 at the end of the run. -/
def Obligations.PendingCommandCompletes : Prop :=
  ∀ s t : State, Inv s → Host.Core.run core (s.turns.length + 1) s = .next t →
    (t.pend = none ∧ t.status.busy = false ∧ t.turns = []) ∧
    ∀ i, s.pend = some i → Turn.reset ∉ s.turns →
      t.status.done = true ∧
      ∃ (k : Nat) (u v : State), k ≤ s.turns.length ∧ Host.Core.run core k s = .next u ∧ u.pend = some i ∧
        exec i { u with turns := u.turns.tail } = .next v ∧
        Host.Core.run core (k + 1) s =
          .next { v with pend := none, status := { v.status with busy := false, done := true } }

/-- 10_state.md R23: only the HOST writes IBUF, one byte per accepted write while idle; a reset clears it; the ENGINE never
changes it. -/
def Obligations.OnlyHostWritesIbuf : Prop :=
  ∀ s t : State, step s = .next t → ∀ i, Memory.read t.ibuf i ≠ Memory.read s.ibuf i →
    (∃ rest, s.turns = .reset :: rest) ∨
      ∃ (a : Addr) (v : Word) (rest : List Turn), s.turns = .host (.write a .byte v) :: rest ∧ s.status.busy = false ∧
        a.toNat = 0x10000 + i ∧ i < s.params.ibufSize ∧ Memory.read t.ibuf i = some (v.extractLsb' 0 8)

/-- 70_reset_and_hazards.md section 2 and 10_state.md R41: the result registers change only when the ENGINE completes a
decode command whose index names a candidate, or by a reset. -/
def Obligations.ResultsChangeOnlyByDecode : Prop :=
  ∀ s t : State, step s = .next t → ¬SameResults s t →
    (∃ rest, s.turns = .reset :: rest) ∨
      ∃ (i : Instr) (idx : Half), s.pend = some i ∧ (i = .decTs idx ∨ i = .decSamp idx ∨ i = .decFull idx) ∧
        idx.toNat < s.candCount.toNat ∧ (s.turns = [] ∨ ∃ rest, s.turns = .engine :: rest)

/-- 10_state.md R39 and R40, 20_memory.md R73: the candidate table and CAND_COUNT change only when the ENGINE completes a
SCAN, by an input write while idle (which only sets CAND_COUNT to 0), or by a reset. So after an input write the table
stays invalid until the next SCAN. -/
def Obligations.TableChangesOnlyByScanOrInvalidation : Prop :=
  ∀ s t : State, step s = .next t → ¬SameTable s t →
    (∃ rest, s.turns = .reset :: rest) ∨
    (∃ idx, s.pend = some (.scan idx) ∧ (s.turns = [] ∨ ∃ rest, s.turns = .engine :: rest)) ∨
    ∃ (a : Addr) (sz : Size) (v : Word) (rest : List Turn), s.turns = .host (.write a sz v) :: rest ∧
      s.status.busy = false ∧ InputWriteAccepted s.params a.toNat sz ∧ t.candCount = 0 ∧ t.candTable = s.candTable

/-- 10_state.md R20, R24, R26 and 20_memory.md R71: the parameters never change; CFG and IN_LEN change only by the HOST's
write of that register while idle, or by a reset, so no command ever sees them change. -/
def Obligations.ConfigurationChangesOnlyByIdleWrite : Prop :=
  ∀ s t : State, step s = .next t →
    t.params = s.params ∧
    (t.cfg ≠ s.cfg → (∃ rest, s.turns = .reset :: rest) ∨
      ∃ v rest, s.turns = .host (.write 0x00008 .word v) :: rest ∧ s.status.busy = false) ∧
    (t.inLen ≠ s.inLen → (∃ rest, s.turns = .reset :: rest) ∨
      ∃ v rest, s.turns = .host (.write 0x0000C .word v) :: rest ∧ s.status.busy = false)

/-- 20_memory.md section 5: an accepted read changes no state of the block, at any BUSY (the model's own fields record the
response and the values drawn). -/
def Obligations.AcceptedReadHasNoSideEffect : Prop :=
  ∀ (s : State) (rest : List Turn) (a : Addr) (sz : Size), s.turns = .host (.read a sz) :: rest →
    ReadAccepted s.params a.toNat sz →
    ∃ t, step s = .next t ∧ t = { s with turns := rest, draws := t.draws, log := t.log }

/-- IBUF is a memory: after a write the cell reads as written and every other cell as before. -/
def Obligations.MemoryReadAfterWrite : Prop :=
  ∀ (m : Memory) (a : Nat) (v : Byte) (b : Nat),
    Memory.read (Memory.write m a v) b = if b = a then some v else Memory.read m b
end

