-- ==== Sys2Proof/Laws/Memory.lean ====
section
/-! SUPPORT. IBUF: read after write, the canonical form, and what `MemRead` answers. -/

namespace Sys2Proof.Machine

@[simp] theorem Memory.read_nil (a : Nat) : Memory.read [] a = none := rfl

theorem Memory.read_cons (k : Nat) (b : Byte) (m : Memory) (a : Nat) :
    Memory.read ((k, b) :: m) a = if a = k then some b else Memory.read m a := rfl

/-- Every cell a write leaves is an old one or the written one. -/
theorem Memory.mem_write {m : Memory} {a : Nat} {v : Byte} {c : Host.Cell} (h : c ∈ Memory.write m a v) :
    c = (a, v) ∨ c ∈ m := by
  induction m with
  | nil => simpa [Memory.write] using h
  | cons hd tl ih =>
    obtain ⟨k, b⟩ := hd
    unfold Memory.write at h
    split at h
    · simpa using h
    · split at h
      · rename_i heq
        subst heq
        rcases List.mem_cons.mp h with h | h
        · exact .inl h
        · exact .inr (List.mem_cons_of_mem _ h)
      · rcases List.mem_cons.mp h with h | h
        · exact .inr (h ▸ List.mem_cons_self)
        · exact (ih h).imp id (List.mem_cons_of_mem _)

/-- The canonical form says that the indices rise strictly. -/
theorem Memory.wf_iff_pairwise (m : Memory) : Memory.wf m = true ↔ m.Pairwise (fun c d => c.1 < d.1) := by
  induction m with
  | nil => simp [Memory.wf]
  | cons hd tl ih =>
    obtain ⟨k, b⟩ := hd
    cases tl with
    | nil => simp [Memory.wf]
    | cons hd2 tl =>
      obtain ⟨l, c⟩ := hd2
      rw [Memory.wf, Bool.and_eq_true, ih, decide_eq_true_eq]
      constructor
      · rintro ⟨hkl, h⟩
        refine List.pairwise_cons.mpr ⟨fun d hd => ?_, h⟩
        rcases List.mem_cons.mp hd with rfl | hd
        · exact hkl
        · exact hkl.trans (List.rel_of_pairwise_cons h hd)
      · intro h
        obtain ⟨hall, h⟩ := List.pairwise_cons.mp h
        exact ⟨hall _ List.mem_cons_self, h⟩

/-- A write keeps the canonical form. -/
theorem Memory.write_keeps_wf {m : Memory} (h : Memory.wf m = true) (a : Nat) (v : Byte) :
    Memory.wf (Memory.write m a v) = true := by
  rw [Memory.wf_iff_pairwise] at h ⊢
  induction m with
  | nil => simp [Memory.write]
  | cons hd tl ih =>
    obtain ⟨k, b⟩ := hd
    obtain ⟨hk, htl⟩ := List.pairwise_cons.mp h
    unfold Memory.write
    split
    · rename_i hak
      refine List.pairwise_cons.mpr ⟨fun d hd => ?_, h⟩
      rcases List.mem_cons.mp hd with rfl | hd
      · exact hak
      · exact hak.trans (hk d hd)
    · split
      · exact List.pairwise_cons.mpr ⟨hk, htl⟩
      · refine List.pairwise_cons.mpr ⟨fun d hd => ?_, ih htl⟩
        rcases Memory.mem_write hd with rfl | hd
        · show k < a
          omega
        · exact hk d hd

/-- `MemRead` answers bytes exactly where every cell has been written, and then they are the cells in address order. -/
theorem memRead_ok_iff (m : Memory) (a n : Nat) (bs : List Byte) :
    memRead m a n = .ok bs ↔ bs.length = n ∧ ∀ j, j < n → Memory.read m (a + j) = bs[j]? := by
  induction n generalizing a bs with
  | zero => cases bs <;> simp [memRead]
  | succ n ih =>
    unfold memRead
    constructor
    · intro h
      split at h
      · cases h
      · rename_i b hb
        split at h
        · cases h
        · rename_i cs hcs
          cases h
          obtain ⟨hl, hr⟩ := (ih _ _).mp hcs
          refine ⟨by simp [hl], fun j hj => ?_⟩
          cases j with
          | zero => simpa using hb
          | succ j =>
            have := hr j (by omega)
            simpa [Nat.add_assoc, Nat.add_comm 1 j] using this
    · rintro ⟨hl, hr⟩
      cases bs with
      | nil => simp at hl
      | cons b bs =>
        have h0 := hr 0 (by omega)
        simp only [Nat.add_zero, List.getElem?_cons_zero] at h0
        rw [h0]
        have : memRead m (a + 1) n = .ok bs := by
          refine (ih _ _).mpr ⟨by simpa using hl, fun j hj => ?_⟩
          have := hr (j + 1) (by omega)
          simpa [Nat.add_assoc, Nat.add_comm 1 j] using this
        rw [this]

/-- `MemRead` faults exactly at the first cell no write has defined. -/
theorem memRead_error_iff (m : Memory) (a n : Nat) (f : Fault) :
    memRead m a n = .error f ↔
      ∃ j, j < n ∧ f = .uninitRead (a + j) ∧ Memory.read m (a + j) = none ∧
        ∀ i, i < j → (Memory.read m (a + i)).isSome = true := by
  induction n generalizing a with
  | zero => simp [memRead]
  | succ n ih =>
    unfold memRead
    constructor
    · intro h
      split at h
      · rename_i hb
        cases h
        exact ⟨0, by omega, rfl, hb, by omega⟩
      · rename_i b hb
        split at h
        · rename_i g hg
          cases h
          obtain ⟨j, hj, hf, hn, hlt⟩ := (ih _).mp hg
          refine ⟨j + 1, by omega, by rw [hf]; congr 1; omega, by rw [← hn]; congr 1; omega, fun i hi => ?_⟩
          cases i with
          | zero => simp [hb]
          | succ i =>
            have := hlt i (by omega)
            rwa [show a + (i + 1) = a + 1 + i by omega]
        · cases h
    · rintro ⟨j, hj, rfl, hn, hlt⟩
      cases j with
      | zero => simp only [Nat.add_zero] at hn ⊢; rw [hn]
      | succ j =>
        have h0 := hlt 0 (by omega)
        obtain ⟨b, hb⟩ := Option.isSome_iff_exists.mp h0
        rw [Nat.add_zero] at hb
        rw [hb]
        have : memRead m (a + 1) n = .error (.uninitRead (a + (j + 1))) := by
          refine (ih _).mpr ⟨j, by omega, by congr 1; omega, by rw [← hn]; congr 1; omega, fun i hi => ?_⟩
          have := hlt (i + 1) (by omega)
          rwa [show a + 1 + i = a + (i + 1) by omega]
        rw [this]

/-- Where every cell has been written `MemRead` answers bytes. -/
theorem memRead_of_written {m : Memory} {a n : Nat} (h : Written m a n) : ∃ bs, memRead m a n = .ok bs := by
  cases hr : memRead m a n with
  | ok bs => exact ⟨bs, rfl⟩
  | error f =>
    obtain ⟨j, hj, -, hn, -⟩ := (memRead_error_iff _ _ _ _).mp hr
    simpa [hn] using h j hj

/-- `MemRead` depends on the cells it reads alone. -/
theorem memRead_congr {m m' : Memory} {a n : Nat}
    (h : ∀ j, j < n → Memory.read m' (a + j) = Memory.read m (a + j)) : memRead m' a n = memRead m a n := by
  induction n generalizing a with
  | zero => rfl
  | succ n ih =>
    have h0 := h 0 (by omega)
    rw [Nat.add_zero] at h0
    have := ih (a := a + 1) fun j hj => by
      have := h (j + 1) (by omega)
      rwa [show a + (j + 1) = a + 1 + j by omega] at this
    unfold memRead
    rw [h0, this]

end Sys2Proof.Machine
end

