-- ==== Sys2Proof/Laws/Split.lean ====
section
/-! SUPPORT. What the loop of SCAN (spec/41_scanner.md R140) leaves: how many candidates, where they start and end, and
what they hold. -/

namespace Sys2Proof.Machine

theorem Candidate.between_start {start : Nat} (stop : Nat) (h : start ≤ 65535) :
    (Candidate.between start stop).start.toNat = start := by
  simp only [Candidate.between, BitVec.toNat_ofNat]
  exact Nat.mod_eq_of_lt (by omega)

theorem Candidate.between_len (start : Nat) {stop : Nat} (h : stop ≤ 65535) :
    (Candidate.between start stop).len.toNat = stop - start := by
  simp only [Candidate.between, BitVec.toNat_ofNat]
  exact Nat.mod_eq_of_lt (by omega)

theorem splitFrom_cons_delim (d : Byte) (start a : Nat) (bs : List Byte) :
    splitFrom d start a (d :: bs) = Candidate.between start a :: splitFrom d (a + 1) (a + 1) bs := by
  simp [splitFrom]

theorem splitFrom_cons_other {d b : Byte} (h : b ≠ d) (start a : Nat) (bs : List Byte) :
    splitFrom d start a (b :: bs) = splitFrom d start (a + 1) bs := by
  simp [splitFrom, h]

/-- One candidate more than delimiters. -/
theorem splitFrom_length (d : Byte) (start a : Nat) (bs : List Byte) :
    (splitFrom d start a bs).length = 1 + bs.count d := by
  induction bs generalizing start a with
  | nil => simp [splitFrom]
  | cons b bs ih =>
    by_cases h : b = d
    · subst h
      rw [splitFrom_cons_delim, List.length_cons, ih, List.count_cons_self]
      omega
    · rw [splitFrom_cons_other h, ih, List.count_cons_of_ne h]

/-- The first candidate starts where the loop's current one does. -/
theorem splitFrom_head {d : Byte} {start a : Nat} {bs : List Byte} (hs : start ≤ 65535) (h : start ≤ a)
    (hb : a + bs.length ≤ 65535) : ∃ c cs, splitFrom d start a bs = c :: cs ∧ c.start.toNat = start := by
  induction bs generalizing a with
  | nil => exact ⟨_, _, rfl, Candidate.between_start _ hs⟩
  | cons b bs ih =>
    rw [List.length_cons] at hb
    by_cases hbd : b = d
    · subst hbd
      exact ⟨_, _, splitFrom_cons_delim .., Candidate.between_start _ hs⟩
    · rw [splitFrom_cons_other hbd]
      exact ih (by omega) (by omega)

/-- Every candidate lies between the loop's current start and the end of the bytes. -/
theorem splitFrom_bounds {d : Byte} {start a : Nat} {bs : List Byte} (h : start ≤ a) (hb : a + bs.length ≤ 65535) :
    ∀ c ∈ splitFrom d start a bs, start ≤ c.start.toNat ∧ c.start.toNat + c.len.toNat ≤ a + bs.length := by
  induction bs generalizing start a with
  | nil =>
    intro c hc
    simp only [splitFrom, List.mem_singleton] at hc
    subst hc
    rw [Candidate.between_start a (by omega), Candidate.between_len start (by simpa using hb)]
    simp only [List.length_nil]
    omega
  | cons b bs ih =>
    rw [List.length_cons] at hb
    intro c hc
    rw [List.length_cons]
    by_cases hbd : b = d
    · subst hbd
      rw [splitFrom_cons_delim] at hc
      rcases List.mem_cons.mp hc with rfl | hc
      · rw [Candidate.between_start a (by omega), Candidate.between_len start (by omega)]
        omega
      · have := ih (start := a + 1) (a := a + 1) (by omega) (by omega) c hc
        omega
    · rw [splitFrom_cons_other hbd] at hc
      have := ih (start := start) (a := a + 1) (by omega) (by omega) c hc
      omega

/-- The last candidate runs to the end of the bytes. -/
theorem splitFrom_last {d : Byte} {start a : Nat} {bs : List Byte} (h : start ≤ a) (hb : a + bs.length ≤ 65535)
    {c : Candidate} (hc : (splitFrom d start a bs).getLast? = some c) :
    c.start.toNat + c.len.toNat = a + bs.length := by
  induction bs generalizing start a with
  | nil =>
    simp only [splitFrom, List.getLast?_singleton, Option.some.injEq] at hc
    subst hc
    rw [Candidate.between_start a (by omega), Candidate.between_len start (by simpa using hb)]
    simp only [List.length_nil]
    omega
  | cons b bs ih =>
    rw [List.length_cons] at hb ⊢
    by_cases hbd : b = d
    · subst hbd
      rw [splitFrom_cons_delim] at hc
      obtain ⟨c1, cs, hcs, -⟩ :=
        splitFrom_head (d := b) (start := a + 1) (a := a + 1) (bs := bs) (by omega) le_rfl (by omega)
      rw [hcs, List.getLast?_cons_cons, ← hcs] at hc
      have := ih (by omega) (by omega) hc
      omega
    · rw [splitFrom_cons_other hbd] at hc
      have := ih (by omega) (by omega) hc
      omega

/-- Between two neighbouring candidates stands one byte, a delimiter. -/
theorem splitFrom_chain {d : Byte} {start a : Nat} {bs : List Byte} (h : start ≤ a) (hb : a + bs.length ≤ 65535)
    {j : Nat} {c c' : Candidate} (hc : (splitFrom d start a bs)[j]? = some c)
    (hc' : (splitFrom d start a bs)[j + 1]? = some c') :
    c'.start.toNat = c.start.toNat + c.len.toNat + 1 ∧ a ≤ c.start.toNat + c.len.toNat ∧
      bs[c.start.toNat + c.len.toNat - a]? = some d := by
  induction bs generalizing start a j with
  | nil => simp [splitFrom] at hc'
  | cons b bs ih =>
    rw [List.length_cons] at hb
    by_cases hbd : b = d
    · subst hbd
      rw [splitFrom_cons_delim] at hc hc'
      rw [List.getElem?_cons_succ] at hc'
      cases j with
      | zero =>
        rw [List.getElem?_cons_zero, Option.some.injEq] at hc
        subst hc
        obtain ⟨c1, cs, hcs, h1⟩ :=
          splitFrom_head (d := b) (start := a + 1) (a := a + 1) (bs := bs) (by omega) le_rfl (by omega)
        rw [hcs, List.getElem?_cons_zero, Option.some.injEq] at hc'
        subst hc'
        rw [Candidate.between_start a (by omega), Candidate.between_len start (by omega)]
        refine ⟨by omega, by omega, ?_⟩
        rw [show start + (a - start) - a = 0 by omega, List.getElem?_cons_zero]
      | succ j =>
        rw [List.getElem?_cons_succ] at hc
        obtain ⟨h1, h2, h3⟩ := ih (by omega) (by omega) hc hc'
        refine ⟨h1, by omega, ?_⟩
        rw [show c.start.toNat + c.len.toNat - a = c.start.toNat + c.len.toNat - (a + 1) + 1 by omega,
          List.getElem?_cons_succ]
        exact h3
    · rw [splitFrom_cons_other hbd] at hc hc'
      obtain ⟨h1, h2, h3⟩ := ih (by omega) (by omega) hc hc'
      refine ⟨h1, by omega, ?_⟩
      rw [show c.start.toNat + c.len.toNat - a = c.start.toNat + c.len.toNat - (a + 1) + 1 by omega,
        List.getElem?_cons_succ]
      exact h3

/-- No byte the loop has still to see lies inside a candidate and is a delimiter. -/
theorem splitFrom_no_delim {d : Byte} {start a : Nat} {bs : List Byte} (h : start ≤ a) (hb : a + bs.length ≤ 65535)
    {c : Candidate} (hc : c ∈ splitFrom d start a bs) {k : Nat} (hk : k < c.len.toNat)
    (ha : a ≤ c.start.toNat + k) : bs[c.start.toNat + k - a]? ≠ some d := by
  induction bs generalizing start a with
  | nil => simp
  | cons b bs ih =>
    rw [List.length_cons] at hb
    by_cases hbd : b = d
    · subst hbd
      rw [splitFrom_cons_delim] at hc
      rcases List.mem_cons.mp hc with rfl | hc
      · rw [Candidate.between_start a (by omega)] at ha
        rw [Candidate.between_len start (by omega)] at hk
        omega
      · have := (splitFrom_bounds (by omega) (by omega) c hc).1
        rw [show c.start.toNat + k - a = c.start.toNat + k - (a + 1) + 1 by omega, List.getElem?_cons_succ]
        exact ih (by omega) (by omega) hc (by omega)
    · rw [splitFrom_cons_other hbd] at hc
      by_cases hz : c.start.toNat + k = a
      · rw [hz, Nat.sub_self, List.getElem?_cons_zero]
        simpa using hbd
      · rw [show c.start.toNat + k - a = c.start.toNat + k - (a + 1) + 1 by omega, List.getElem?_cons_succ]
        exact ih (by omega) (by omega) hc (by omega)

/-- `split` of a capture of at least one byte is the loop from index 0. -/
theorem split_of_length_pos {d : Byte} {bs : List Byte} (h : 0 < bs.length) : split d bs = splitFrom d 0 0 bs := by
  cases bs with
  | nil => simp at h
  | cons b bs => simp [split]

@[simp] theorem split_nil (d : Byte) : split d [] = [] := rfl

/-- At most one candidate more than bytes. -/
theorem split_length_le (d : Byte) (bs : List Byte) : (split d bs).length ≤ bs.length + 1 := by
  cases bs with
  | nil => simp
  | cons b bs =>
    rw [split_of_length_pos (by simp), splitFrom_length]
    have := List.count_le_length (a := d) (l := b :: bs)
    omega

/-- Every candidate of a capture lies in it. -/
theorem split_bounds {d : Byte} {bs : List Byte} (hb : bs.length ≤ 65535) :
    ∀ c ∈ split d bs, c.start.toNat + c.len.toNat ≤ bs.length := by
  cases bs with
  | nil => simp
  | cons b bs =>
    intro c hc
    rw [split_of_length_pos (by simp)] at hc
    have := splitFrom_bounds (by omega) (by omega) c hc
    omega

end Sys2Proof.Machine
end

