-- ==== Sys2Proof/Laws/State.lean ====
section
/-! SUPPORT. One lemma for each field of State under each named update, so that no proof unfolds a record update. -/

namespace Sys2Proof.Machine

/-! ### State.putCandidates -/

@[simp] theorem State.putCandidates_params (s : State) (cs : List Candidate) : (s.putCandidates cs).params = s.params := rfl
@[simp] theorem State.putCandidates_ibuf (s : State) (cs : List Candidate) : (s.putCandidates cs).ibuf = s.ibuf := rfl
@[simp] theorem State.putCandidates_inLen (s : State) (cs : List Candidate) : (s.putCandidates cs).inLen = s.inLen := rfl
@[simp] theorem State.putCandidates_cfg (s : State) (cs : List Candidate) : (s.putCandidates cs).cfg = s.cfg := rfl
@[simp] theorem State.putCandidates_status (s : State) (cs : List Candidate) : (s.putCandidates cs).status = s.status := rfl
@[simp] theorem State.putCandidates_pend (s : State) (cs : List Candidate) : (s.putCandidates cs).pend = s.pend := rfl
@[simp] theorem State.putCandidates_candCount (s : State) (cs : List Candidate) : (s.putCandidates cs).candCount = BitVec.ofNat 17 cs.length := rfl
@[simp] theorem State.putCandidates_candTable (s : State) (cs : List Candidate) : (s.putCandidates cs).candTable = cs ++ s.candTable.drop cs.length := rfl
@[simp] theorem State.putCandidates_resIdx (s : State) (cs : List Candidate) : (s.putCandidates cs).resIdx = s.resIdx := rfl
@[simp] theorem State.putCandidates_resFlen (s : State) (cs : List Candidate) : (s.putCandidates cs).resFlen = s.resFlen := rfl
@[simp] theorem State.putCandidates_resTs (s : State) (cs : List Candidate) : (s.putCandidates cs).resTs = s.resTs := rfl
@[simp] theorem State.putCandidates_resNsamp (s : State) (cs : List Candidate) : (s.putCandidates cs).resNsamp = s.resNsamp := rfl
@[simp] theorem State.putCandidates_resSamp (s : State) (cs : List Candidate) : (s.putCandidates cs).resSamp = s.resSamp := rfl
@[simp] theorem State.putCandidates_turns (s : State) (cs : List Candidate) : (s.putCandidates cs).turns = s.turns := rfl
@[simp] theorem State.putCandidates_draws (s : State) (cs : List Candidate) : (s.putCandidates cs).draws = s.draws := rfl
@[simp] theorem State.putCandidates_log (s : State) (cs : List Candidate) : (s.putCandidates cs).log = s.log := rfl
@[simp] theorem State.putCandidates_sampleAt (s : State) (cs : List Candidate) (j : Nat) : (s.putCandidates cs).sampleAt j = s.sampleAt j := rfl

/-! ### State.invalidate -/

@[simp] theorem State.invalidate_params (s : State) : s.invalidate.params = s.params := rfl
@[simp] theorem State.invalidate_ibuf (s : State) : s.invalidate.ibuf = s.ibuf := rfl
@[simp] theorem State.invalidate_inLen (s : State) : s.invalidate.inLen = s.inLen := rfl
@[simp] theorem State.invalidate_cfg (s : State) : s.invalidate.cfg = s.cfg := rfl
@[simp] theorem State.invalidate_status (s : State) : s.invalidate.status = s.status := rfl
@[simp] theorem State.invalidate_pend (s : State) : s.invalidate.pend = s.pend := rfl
@[simp] theorem State.invalidate_candCount (s : State) : s.invalidate.candCount = 0 := rfl
@[simp] theorem State.invalidate_candTable (s : State) : s.invalidate.candTable = s.candTable := rfl
@[simp] theorem State.invalidate_resIdx (s : State) : s.invalidate.resIdx = s.resIdx := rfl
@[simp] theorem State.invalidate_resFlen (s : State) : s.invalidate.resFlen = s.resFlen := rfl
@[simp] theorem State.invalidate_resTs (s : State) : s.invalidate.resTs = s.resTs := rfl
@[simp] theorem State.invalidate_resNsamp (s : State) : s.invalidate.resNsamp = s.resNsamp := rfl
@[simp] theorem State.invalidate_resSamp (s : State) : s.invalidate.resSamp = s.resSamp := rfl
@[simp] theorem State.invalidate_turns (s : State) : s.invalidate.turns = s.turns := rfl
@[simp] theorem State.invalidate_draws (s : State) : s.invalidate.draws = s.draws := rfl
@[simp] theorem State.invalidate_log (s : State) : s.invalidate.log = s.log := rfl
@[simp] theorem State.invalidate_candAt (s : State) (j : Nat) : s.invalidate.candAt j = s.candAt j := rfl
@[simp] theorem State.invalidate_sampleAt (s : State) (j : Nat) : s.invalidate.sampleAt j = s.sampleAt j := rfl

/-! ### State.putFrame -/

@[simp] theorem State.putFrame_params (s : State) (i l : Half) : (s.putFrame i l).params = s.params := rfl
@[simp] theorem State.putFrame_ibuf (s : State) (i l : Half) : (s.putFrame i l).ibuf = s.ibuf := rfl
@[simp] theorem State.putFrame_inLen (s : State) (i l : Half) : (s.putFrame i l).inLen = s.inLen := rfl
@[simp] theorem State.putFrame_cfg (s : State) (i l : Half) : (s.putFrame i l).cfg = s.cfg := rfl
@[simp] theorem State.putFrame_status (s : State) (i l : Half) : (s.putFrame i l).status = s.status := rfl
@[simp] theorem State.putFrame_pend (s : State) (i l : Half) : (s.putFrame i l).pend = s.pend := rfl
@[simp] theorem State.putFrame_candCount (s : State) (i l : Half) : (s.putFrame i l).candCount = s.candCount := rfl
@[simp] theorem State.putFrame_candTable (s : State) (i l : Half) : (s.putFrame i l).candTable = s.candTable := rfl
@[simp] theorem State.putFrame_resIdx (s : State) (i l : Half) : (s.putFrame i l).resIdx = i := rfl
@[simp] theorem State.putFrame_resFlen (s : State) (i l : Half) : (s.putFrame i l).resFlen = l := rfl
@[simp] theorem State.putFrame_resTs (s : State) (i l : Half) : (s.putFrame i l).resTs = s.resTs := rfl
@[simp] theorem State.putFrame_resNsamp (s : State) (i l : Half) : (s.putFrame i l).resNsamp = s.resNsamp := rfl
@[simp] theorem State.putFrame_resSamp (s : State) (i l : Half) : (s.putFrame i l).resSamp = s.resSamp := rfl
@[simp] theorem State.putFrame_turns (s : State) (i l : Half) : (s.putFrame i l).turns = s.turns := rfl
@[simp] theorem State.putFrame_draws (s : State) (i l : Half) : (s.putFrame i l).draws = s.draws := rfl
@[simp] theorem State.putFrame_log (s : State) (i l : Half) : (s.putFrame i l).log = s.log := rfl
@[simp] theorem State.putFrame_candAt (s : State) (i l : Half) (j : Nat) : (s.putFrame i l).candAt j = s.candAt j := rfl
@[simp] theorem State.putFrame_sampleAt (s : State) (i l : Half) (j : Nat) : (s.putFrame i l).sampleAt j = s.sampleAt j := rfl

/-! ### State.putTs -/

@[simp] theorem State.putTs_params (s : State) (v : Word) : (s.putTs v).params = s.params := rfl
@[simp] theorem State.putTs_ibuf (s : State) (v : Word) : (s.putTs v).ibuf = s.ibuf := rfl
@[simp] theorem State.putTs_inLen (s : State) (v : Word) : (s.putTs v).inLen = s.inLen := rfl
@[simp] theorem State.putTs_cfg (s : State) (v : Word) : (s.putTs v).cfg = s.cfg := rfl
@[simp] theorem State.putTs_status (s : State) (v : Word) : (s.putTs v).status = s.status := rfl
@[simp] theorem State.putTs_pend (s : State) (v : Word) : (s.putTs v).pend = s.pend := rfl
@[simp] theorem State.putTs_candCount (s : State) (v : Word) : (s.putTs v).candCount = s.candCount := rfl
@[simp] theorem State.putTs_candTable (s : State) (v : Word) : (s.putTs v).candTable = s.candTable := rfl
@[simp] theorem State.putTs_resIdx (s : State) (v : Word) : (s.putTs v).resIdx = s.resIdx := rfl
@[simp] theorem State.putTs_resFlen (s : State) (v : Word) : (s.putTs v).resFlen = s.resFlen := rfl
@[simp] theorem State.putTs_resTs (s : State) (v : Word) : (s.putTs v).resTs = v := rfl
@[simp] theorem State.putTs_resNsamp (s : State) (v : Word) : (s.putTs v).resNsamp = s.resNsamp := rfl
@[simp] theorem State.putTs_resSamp (s : State) (v : Word) : (s.putTs v).resSamp = s.resSamp := rfl
@[simp] theorem State.putTs_turns (s : State) (v : Word) : (s.putTs v).turns = s.turns := rfl
@[simp] theorem State.putTs_draws (s : State) (v : Word) : (s.putTs v).draws = s.draws := rfl
@[simp] theorem State.putTs_log (s : State) (v : Word) : (s.putTs v).log = s.log := rfl
@[simp] theorem State.putTs_candAt (s : State) (v : Word) (j : Nat) : (s.putTs v).candAt j = s.candAt j := rfl
@[simp] theorem State.putTs_sampleAt (s : State) (v : Word) (j : Nat) : (s.putTs v).sampleAt j = s.sampleAt j := rfl

/-! ### State.clearSamples -/

@[simp] theorem State.clearSamples_params (s : State) : s.clearSamples.params = s.params := rfl
@[simp] theorem State.clearSamples_ibuf (s : State) : s.clearSamples.ibuf = s.ibuf := rfl
@[simp] theorem State.clearSamples_inLen (s : State) : s.clearSamples.inLen = s.inLen := rfl
@[simp] theorem State.clearSamples_cfg (s : State) : s.clearSamples.cfg = s.cfg := rfl
@[simp] theorem State.clearSamples_status (s : State) : s.clearSamples.status = s.status := rfl
@[simp] theorem State.clearSamples_pend (s : State) : s.clearSamples.pend = s.pend := rfl
@[simp] theorem State.clearSamples_candCount (s : State) : s.clearSamples.candCount = s.candCount := rfl
@[simp] theorem State.clearSamples_candTable (s : State) : s.clearSamples.candTable = s.candTable := rfl
@[simp] theorem State.clearSamples_resIdx (s : State) : s.clearSamples.resIdx = s.resIdx := rfl
@[simp] theorem State.clearSamples_resFlen (s : State) : s.clearSamples.resFlen = s.resFlen := rfl
@[simp] theorem State.clearSamples_resTs (s : State) : s.clearSamples.resTs = s.resTs := rfl
@[simp] theorem State.clearSamples_resNsamp (s : State) : s.clearSamples.resNsamp = 0 := rfl
@[simp] theorem State.clearSamples_resSamp (s : State) : s.clearSamples.resSamp = s.resSamp := rfl
@[simp] theorem State.clearSamples_turns (s : State) : s.clearSamples.turns = s.turns := rfl
@[simp] theorem State.clearSamples_draws (s : State) : s.clearSamples.draws = s.draws := rfl
@[simp] theorem State.clearSamples_log (s : State) : s.clearSamples.log = s.log := rfl
@[simp] theorem State.clearSamples_candAt (s : State) (j : Nat) : s.clearSamples.candAt j = s.candAt j := rfl
@[simp] theorem State.clearSamples_sampleAt (s : State) (j : Nat) : s.clearSamples.sampleAt j = s.sampleAt j := rfl

/-! ### State.putSamples -/

@[simp] theorem State.putSamples_params (s : State) (vs : List Half) : (s.putSamples vs).params = s.params := rfl
@[simp] theorem State.putSamples_ibuf (s : State) (vs : List Half) : (s.putSamples vs).ibuf = s.ibuf := rfl
@[simp] theorem State.putSamples_inLen (s : State) (vs : List Half) : (s.putSamples vs).inLen = s.inLen := rfl
@[simp] theorem State.putSamples_cfg (s : State) (vs : List Half) : (s.putSamples vs).cfg = s.cfg := rfl
@[simp] theorem State.putSamples_status (s : State) (vs : List Half) : (s.putSamples vs).status = s.status := rfl
@[simp] theorem State.putSamples_pend (s : State) (vs : List Half) : (s.putSamples vs).pend = s.pend := rfl
@[simp] theorem State.putSamples_candCount (s : State) (vs : List Half) : (s.putSamples vs).candCount = s.candCount := rfl
@[simp] theorem State.putSamples_candTable (s : State) (vs : List Half) : (s.putSamples vs).candTable = s.candTable := rfl
@[simp] theorem State.putSamples_resIdx (s : State) (vs : List Half) : (s.putSamples vs).resIdx = s.resIdx := rfl
@[simp] theorem State.putSamples_resFlen (s : State) (vs : List Half) : (s.putSamples vs).resFlen = s.resFlen := rfl
@[simp] theorem State.putSamples_resTs (s : State) (vs : List Half) : (s.putSamples vs).resTs = s.resTs := rfl
@[simp] theorem State.putSamples_resNsamp (s : State) (vs : List Half) : (s.putSamples vs).resNsamp = BitVec.ofNat 16 vs.length := rfl
@[simp] theorem State.putSamples_resSamp (s : State) (vs : List Half) : (s.putSamples vs).resSamp = vs ++ s.resSamp.drop vs.length := rfl
@[simp] theorem State.putSamples_turns (s : State) (vs : List Half) : (s.putSamples vs).turns = s.turns := rfl
@[simp] theorem State.putSamples_draws (s : State) (vs : List Half) : (s.putSamples vs).draws = s.draws := rfl
@[simp] theorem State.putSamples_log (s : State) (vs : List Half) : (s.putSamples vs).log = s.log := rfl
@[simp] theorem State.putSamples_candAt (s : State) (vs : List Half) (j : Nat) : (s.putSamples vs).candAt j = s.candAt j := rfl

/-! ### State.raise -/

@[simp] theorem State.raise_params (s : State) (c : CompletionCode) : (s.raise c).params = s.params := rfl
@[simp] theorem State.raise_ibuf (s : State) (c : CompletionCode) : (s.raise c).ibuf = s.ibuf := rfl
@[simp] theorem State.raise_inLen (s : State) (c : CompletionCode) : (s.raise c).inLen = s.inLen := rfl
@[simp] theorem State.raise_cfg (s : State) (c : CompletionCode) : (s.raise c).cfg = s.cfg := rfl
@[simp] theorem State.raise_status (s : State) (c : CompletionCode) : (s.raise c).status = { s.status with code := c } := rfl
@[simp] theorem State.raise_pend (s : State) (c : CompletionCode) : (s.raise c).pend = s.pend := rfl
@[simp] theorem State.raise_candCount (s : State) (c : CompletionCode) : (s.raise c).candCount = s.candCount := rfl
@[simp] theorem State.raise_candTable (s : State) (c : CompletionCode) : (s.raise c).candTable = s.candTable := rfl
@[simp] theorem State.raise_resIdx (s : State) (c : CompletionCode) : (s.raise c).resIdx = s.resIdx := rfl
@[simp] theorem State.raise_resFlen (s : State) (c : CompletionCode) : (s.raise c).resFlen = s.resFlen := rfl
@[simp] theorem State.raise_resTs (s : State) (c : CompletionCode) : (s.raise c).resTs = s.resTs := rfl
@[simp] theorem State.raise_resNsamp (s : State) (c : CompletionCode) : (s.raise c).resNsamp = s.resNsamp := rfl
@[simp] theorem State.raise_resSamp (s : State) (c : CompletionCode) : (s.raise c).resSamp = s.resSamp := rfl
@[simp] theorem State.raise_turns (s : State) (c : CompletionCode) : (s.raise c).turns = s.turns := rfl
@[simp] theorem State.raise_draws (s : State) (c : CompletionCode) : (s.raise c).draws = s.draws := rfl
@[simp] theorem State.raise_log (s : State) (c : CompletionCode) : (s.raise c).log = s.log := rfl
@[simp] theorem State.raise_candAt (s : State) (c : CompletionCode) (j : Nat) : (s.raise c).candAt j = s.candAt j := rfl
@[simp] theorem State.raise_sampleAt (s : State) (c : CompletionCode) (j : Nat) : (s.raise c).sampleAt j = s.sampleAt j := rfl

/-! ### State.complete -/

@[simp] theorem State.complete_params (s : State) : s.complete.params = s.params := rfl
@[simp] theorem State.complete_ibuf (s : State) : s.complete.ibuf = s.ibuf := rfl
@[simp] theorem State.complete_inLen (s : State) : s.complete.inLen = s.inLen := rfl
@[simp] theorem State.complete_cfg (s : State) : s.complete.cfg = s.cfg := rfl
@[simp] theorem State.complete_status (s : State) : s.complete.status = s.status.complete := rfl
@[simp] theorem State.complete_pend (s : State) : s.complete.pend = none := rfl
@[simp] theorem State.complete_candCount (s : State) : s.complete.candCount = s.candCount := rfl
@[simp] theorem State.complete_candTable (s : State) : s.complete.candTable = s.candTable := rfl
@[simp] theorem State.complete_resIdx (s : State) : s.complete.resIdx = s.resIdx := rfl
@[simp] theorem State.complete_resFlen (s : State) : s.complete.resFlen = s.resFlen := rfl
@[simp] theorem State.complete_resTs (s : State) : s.complete.resTs = s.resTs := rfl
@[simp] theorem State.complete_resNsamp (s : State) : s.complete.resNsamp = s.resNsamp := rfl
@[simp] theorem State.complete_resSamp (s : State) : s.complete.resSamp = s.resSamp := rfl
@[simp] theorem State.complete_turns (s : State) : s.complete.turns = s.turns := rfl
@[simp] theorem State.complete_draws (s : State) : s.complete.draws = s.draws := rfl
@[simp] theorem State.complete_log (s : State) : s.complete.log = s.log := rfl
@[simp] theorem State.complete_candAt (s : State) (j : Nat) : s.complete.candAt j = s.candAt j := rfl
@[simp] theorem State.complete_sampleAt (s : State) (j : Nat) : s.complete.sampleAt j = s.sampleAt j := rfl

/-! ### State.payloadStatus -/

@[simp] theorem State.payloadStatus_params (s : State) (p : Nat) : (s.payloadStatus p).params = s.params := rfl
@[simp] theorem State.payloadStatus_ibuf (s : State) (p : Nat) : (s.payloadStatus p).ibuf = s.ibuf := rfl
@[simp] theorem State.payloadStatus_inLen (s : State) (p : Nat) : (s.payloadStatus p).inLen = s.inLen := rfl
@[simp] theorem State.payloadStatus_cfg (s : State) (p : Nat) : (s.payloadStatus p).cfg = s.cfg := rfl
@[simp] theorem State.payloadStatus_status (s : State) (p : Nat) : (s.payloadStatus p).status = s.status.payload p := rfl
@[simp] theorem State.payloadStatus_pend (s : State) (p : Nat) : (s.payloadStatus p).pend = s.pend := rfl
@[simp] theorem State.payloadStatus_candCount (s : State) (p : Nat) : (s.payloadStatus p).candCount = s.candCount := rfl
@[simp] theorem State.payloadStatus_candTable (s : State) (p : Nat) : (s.payloadStatus p).candTable = s.candTable := rfl
@[simp] theorem State.payloadStatus_resIdx (s : State) (p : Nat) : (s.payloadStatus p).resIdx = s.resIdx := rfl
@[simp] theorem State.payloadStatus_resFlen (s : State) (p : Nat) : (s.payloadStatus p).resFlen = s.resFlen := rfl
@[simp] theorem State.payloadStatus_resTs (s : State) (p : Nat) : (s.payloadStatus p).resTs = s.resTs := rfl
@[simp] theorem State.payloadStatus_resNsamp (s : State) (p : Nat) : (s.payloadStatus p).resNsamp = s.resNsamp := rfl
@[simp] theorem State.payloadStatus_resSamp (s : State) (p : Nat) : (s.payloadStatus p).resSamp = s.resSamp := rfl
@[simp] theorem State.payloadStatus_turns (s : State) (p : Nat) : (s.payloadStatus p).turns = s.turns := rfl
@[simp] theorem State.payloadStatus_draws (s : State) (p : Nat) : (s.payloadStatus p).draws = s.draws := rfl
@[simp] theorem State.payloadStatus_log (s : State) (p : Nat) : (s.payloadStatus p).log = s.log := rfl
@[simp] theorem State.payloadStatus_candAt (s : State) (p : Nat) (j : Nat) : (s.payloadStatus p).candAt j = s.candAt j := rfl
@[simp] theorem State.payloadStatus_sampleAt (s : State) (p : Nat) (j : Nat) : (s.payloadStatus p).sampleAt j = s.sampleAt j := rfl

/-! ### State.refuseAccess -/

@[simp] theorem State.refuseAccess_params (s : State) : s.refuseAccess.params = s.params := rfl
@[simp] theorem State.refuseAccess_ibuf (s : State) : s.refuseAccess.ibuf = s.ibuf := rfl
@[simp] theorem State.refuseAccess_inLen (s : State) : s.refuseAccess.inLen = s.inLen := rfl
@[simp] theorem State.refuseAccess_cfg (s : State) : s.refuseAccess.cfg = s.cfg := rfl
@[simp] theorem State.refuseAccess_status (s : State) : s.refuseAccess.status = { s.status with accErr := true } := rfl
@[simp] theorem State.refuseAccess_pend (s : State) : s.refuseAccess.pend = s.pend := rfl
@[simp] theorem State.refuseAccess_candCount (s : State) : s.refuseAccess.candCount = s.candCount := rfl
@[simp] theorem State.refuseAccess_candTable (s : State) : s.refuseAccess.candTable = s.candTable := rfl
@[simp] theorem State.refuseAccess_resIdx (s : State) : s.refuseAccess.resIdx = s.resIdx := rfl
@[simp] theorem State.refuseAccess_resFlen (s : State) : s.refuseAccess.resFlen = s.resFlen := rfl
@[simp] theorem State.refuseAccess_resTs (s : State) : s.refuseAccess.resTs = s.resTs := rfl
@[simp] theorem State.refuseAccess_resNsamp (s : State) : s.refuseAccess.resNsamp = s.resNsamp := rfl
@[simp] theorem State.refuseAccess_resSamp (s : State) : s.refuseAccess.resSamp = s.resSamp := rfl
@[simp] theorem State.refuseAccess_turns (s : State) : s.refuseAccess.turns = s.turns := rfl
@[simp] theorem State.refuseAccess_draws (s : State) : s.refuseAccess.draws = s.draws := rfl
@[simp] theorem State.refuseAccess_log (s : State) : s.refuseAccess.log = s.log := rfl
@[simp] theorem State.refuseAccess_candAt (s : State) (j : Nat) : s.refuseAccess.candAt j = s.candAt j := rfl
@[simp] theorem State.refuseAccess_sampleAt (s : State) (j : Nat) : s.refuseAccess.sampleAt j = s.sampleAt j := rfl

/-! ### State.ignoreBusy -/

@[simp] theorem State.ignoreBusy_params (s : State) : s.ignoreBusy.params = s.params := rfl
@[simp] theorem State.ignoreBusy_ibuf (s : State) : s.ignoreBusy.ibuf = s.ibuf := rfl
@[simp] theorem State.ignoreBusy_inLen (s : State) : s.ignoreBusy.inLen = s.inLen := rfl
@[simp] theorem State.ignoreBusy_cfg (s : State) : s.ignoreBusy.cfg = s.cfg := rfl
@[simp] theorem State.ignoreBusy_status (s : State) : s.ignoreBusy.status = { s.status with busyErr := true } := rfl
@[simp] theorem State.ignoreBusy_pend (s : State) : s.ignoreBusy.pend = s.pend := rfl
@[simp] theorem State.ignoreBusy_candCount (s : State) : s.ignoreBusy.candCount = s.candCount := rfl
@[simp] theorem State.ignoreBusy_candTable (s : State) : s.ignoreBusy.candTable = s.candTable := rfl
@[simp] theorem State.ignoreBusy_resIdx (s : State) : s.ignoreBusy.resIdx = s.resIdx := rfl
@[simp] theorem State.ignoreBusy_resFlen (s : State) : s.ignoreBusy.resFlen = s.resFlen := rfl
@[simp] theorem State.ignoreBusy_resTs (s : State) : s.ignoreBusy.resTs = s.resTs := rfl
@[simp] theorem State.ignoreBusy_resNsamp (s : State) : s.ignoreBusy.resNsamp = s.resNsamp := rfl
@[simp] theorem State.ignoreBusy_resSamp (s : State) : s.ignoreBusy.resSamp = s.resSamp := rfl
@[simp] theorem State.ignoreBusy_turns (s : State) : s.ignoreBusy.turns = s.turns := rfl
@[simp] theorem State.ignoreBusy_draws (s : State) : s.ignoreBusy.draws = s.draws := rfl
@[simp] theorem State.ignoreBusy_log (s : State) : s.ignoreBusy.log = s.log := rfl
@[simp] theorem State.ignoreBusy_candAt (s : State) (j : Nat) : s.ignoreBusy.candAt j = s.candAt j := rfl
@[simp] theorem State.ignoreBusy_sampleAt (s : State) (j : Nat) : s.ignoreBusy.sampleAt j = s.sampleAt j := rfl

/-! ### State.raiseTooShort -/

@[simp] theorem State.raiseTooShort_params (s : State) : s.raiseTooShort.params = s.params := rfl
@[simp] theorem State.raiseTooShort_ibuf (s : State) : s.raiseTooShort.ibuf = s.ibuf := rfl
@[simp] theorem State.raiseTooShort_inLen (s : State) : s.raiseTooShort.inLen = s.inLen := rfl
@[simp] theorem State.raiseTooShort_cfg (s : State) : s.raiseTooShort.cfg = s.cfg := rfl
@[simp] theorem State.raiseTooShort_status (s : State) : s.raiseTooShort.status = { s.status with code := .tooShort } := rfl
@[simp] theorem State.raiseTooShort_pend (s : State) : s.raiseTooShort.pend = s.pend := rfl
@[simp] theorem State.raiseTooShort_candCount (s : State) : s.raiseTooShort.candCount = s.candCount := rfl
@[simp] theorem State.raiseTooShort_candTable (s : State) : s.raiseTooShort.candTable = s.candTable := rfl
@[simp] theorem State.raiseTooShort_resIdx (s : State) : s.raiseTooShort.resIdx = s.resIdx := rfl
@[simp] theorem State.raiseTooShort_resFlen (s : State) : s.raiseTooShort.resFlen = s.resFlen := rfl
@[simp] theorem State.raiseTooShort_resTs (s : State) : s.raiseTooShort.resTs = 0 := rfl
@[simp] theorem State.raiseTooShort_resNsamp (s : State) : s.raiseTooShort.resNsamp = 0 := rfl
@[simp] theorem State.raiseTooShort_resSamp (s : State) : s.raiseTooShort.resSamp = s.resSamp := rfl
@[simp] theorem State.raiseTooShort_turns (s : State) : s.raiseTooShort.turns = s.turns := rfl
@[simp] theorem State.raiseTooShort_draws (s : State) : s.raiseTooShort.draws = s.draws := rfl
@[simp] theorem State.raiseTooShort_log (s : State) : s.raiseTooShort.log = s.log := rfl
@[simp] theorem State.raiseTooShort_candAt (s : State) (j : Nat) : s.raiseTooShort.candAt j = s.candAt j := rfl
@[simp] theorem State.raiseTooShort_sampleAt (s : State) (j : Nat) : s.raiseTooShort.sampleAt j = s.sampleAt j := rfl

/-! ### State.respond -/

@[simp] theorem State.respond_params (s : State) (r : Response) : (s.respond r).params = s.params := rfl
@[simp] theorem State.respond_ibuf (s : State) (r : Response) : (s.respond r).ibuf = s.ibuf := rfl
@[simp] theorem State.respond_inLen (s : State) (r : Response) : (s.respond r).inLen = s.inLen := rfl
@[simp] theorem State.respond_cfg (s : State) (r : Response) : (s.respond r).cfg = s.cfg := rfl
@[simp] theorem State.respond_status (s : State) (r : Response) : (s.respond r).status = s.status := rfl
@[simp] theorem State.respond_pend (s : State) (r : Response) : (s.respond r).pend = s.pend := rfl
@[simp] theorem State.respond_candCount (s : State) (r : Response) : (s.respond r).candCount = s.candCount := rfl
@[simp] theorem State.respond_candTable (s : State) (r : Response) : (s.respond r).candTable = s.candTable := rfl
@[simp] theorem State.respond_resIdx (s : State) (r : Response) : (s.respond r).resIdx = s.resIdx := rfl
@[simp] theorem State.respond_resFlen (s : State) (r : Response) : (s.respond r).resFlen = s.resFlen := rfl
@[simp] theorem State.respond_resTs (s : State) (r : Response) : (s.respond r).resTs = s.resTs := rfl
@[simp] theorem State.respond_resNsamp (s : State) (r : Response) : (s.respond r).resNsamp = s.resNsamp := rfl
@[simp] theorem State.respond_resSamp (s : State) (r : Response) : (s.respond r).resSamp = s.resSamp := rfl
@[simp] theorem State.respond_turns (s : State) (r : Response) : (s.respond r).turns = s.turns := rfl
@[simp] theorem State.respond_draws (s : State) (r : Response) : (s.respond r).draws = s.draws := rfl
@[simp] theorem State.respond_log (s : State) (r : Response) : (s.respond r).log = r :: s.log := rfl
@[simp] theorem State.respond_candAt (s : State) (r : Response) (j : Nat) : (s.respond r).candAt j = s.candAt j := rfl
@[simp] theorem State.respond_sampleAt (s : State) (r : Response) (j : Nat) : (s.respond r).sampleAt j = s.sampleAt j := rfl

/-! ### State.advanceDraws -/

@[simp] theorem State.advanceDraws_params (s : State) (n : Nat) : (s.advanceDraws n).params = s.params := rfl
@[simp] theorem State.advanceDraws_ibuf (s : State) (n : Nat) : (s.advanceDraws n).ibuf = s.ibuf := rfl
@[simp] theorem State.advanceDraws_inLen (s : State) (n : Nat) : (s.advanceDraws n).inLen = s.inLen := rfl
@[simp] theorem State.advanceDraws_cfg (s : State) (n : Nat) : (s.advanceDraws n).cfg = s.cfg := rfl
@[simp] theorem State.advanceDraws_status (s : State) (n : Nat) : (s.advanceDraws n).status = s.status := rfl
@[simp] theorem State.advanceDraws_pend (s : State) (n : Nat) : (s.advanceDraws n).pend = s.pend := rfl
@[simp] theorem State.advanceDraws_candCount (s : State) (n : Nat) : (s.advanceDraws n).candCount = s.candCount := rfl
@[simp] theorem State.advanceDraws_candTable (s : State) (n : Nat) : (s.advanceDraws n).candTable = s.candTable := rfl
@[simp] theorem State.advanceDraws_resIdx (s : State) (n : Nat) : (s.advanceDraws n).resIdx = s.resIdx := rfl
@[simp] theorem State.advanceDraws_resFlen (s : State) (n : Nat) : (s.advanceDraws n).resFlen = s.resFlen := rfl
@[simp] theorem State.advanceDraws_resTs (s : State) (n : Nat) : (s.advanceDraws n).resTs = s.resTs := rfl
@[simp] theorem State.advanceDraws_resNsamp (s : State) (n : Nat) : (s.advanceDraws n).resNsamp = s.resNsamp := rfl
@[simp] theorem State.advanceDraws_resSamp (s : State) (n : Nat) : (s.advanceDraws n).resSamp = s.resSamp := rfl
@[simp] theorem State.advanceDraws_turns (s : State) (n : Nat) : (s.advanceDraws n).turns = s.turns := rfl
@[simp] theorem State.advanceDraws_draws (s : State) (n : Nat) : (s.advanceDraws n).draws = s.draws + n := rfl
@[simp] theorem State.advanceDraws_log (s : State) (n : Nat) : (s.advanceDraws n).log = s.log := rfl
@[simp] theorem State.advanceDraws_candAt (s : State) (n : Nat) (j : Nat) : (s.advanceDraws n).candAt j = s.candAt j := rfl
@[simp] theorem State.advanceDraws_sampleAt (s : State) (n : Nat) (j : Nat) : (s.advanceDraws n).sampleAt j = s.sampleAt j := rfl

/-! ### State.resetStep -/

@[simp] theorem State.resetStep_params (s : State) : s.resetStep.params = s.params := rfl
@[simp] theorem State.resetStep_ibuf (s : State) : s.resetStep.ibuf = [] := rfl
@[simp] theorem State.resetStep_inLen (s : State) : s.resetStep.inLen = 0 := rfl
@[simp] theorem State.resetStep_cfg (s : State) : s.resetStep.cfg = ⟨Config.delimReset, .little⟩ := rfl
@[simp] theorem State.resetStep_status (s : State) : s.resetStep.status = Status.reset := rfl
@[simp] theorem State.resetStep_pend (s : State) : s.resetStep.pend = none := rfl
@[simp] theorem State.resetStep_candCount (s : State) : s.resetStep.candCount = 0 := rfl
@[simp] theorem State.resetStep_candTable (s : State) : s.resetStep.candTable = [] := rfl
@[simp] theorem State.resetStep_resIdx (s : State) : s.resetStep.resIdx = 0 := rfl
@[simp] theorem State.resetStep_resFlen (s : State) : s.resetStep.resFlen = 0 := rfl
@[simp] theorem State.resetStep_resTs (s : State) : s.resetStep.resTs = 0 := rfl
@[simp] theorem State.resetStep_resNsamp (s : State) : s.resetStep.resNsamp = 0 := rfl
@[simp] theorem State.resetStep_resSamp (s : State) : s.resetStep.resSamp = [] := rfl
@[simp] theorem State.resetStep_turns (s : State) : s.resetStep.turns = s.turns := rfl
@[simp] theorem State.resetStep_draws (s : State) : s.resetStep.draws = s.draws := rfl
@[simp] theorem State.resetStep_log (s : State) : s.resetStep.log = s.log := rfl

/-! ### Status.issue -/

@[simp] theorem Status.issue_busy (t : Status) : t.issue.busy = true := rfl
@[simp] theorem Status.issue_done (t : Status) : t.issue.done = false := rfl
@[simp] theorem Status.issue_code (t : Status) : t.issue.code = .ok := rfl
@[simp] theorem Status.issue_odd (t : Status) : t.issue.odd = false := rfl
@[simp] theorem Status.issue_nominal (t : Status) : t.issue.nominal = false := rfl
@[simp] theorem Status.issue_busyErr (t : Status) : t.issue.busyErr = t.busyErr := rfl
@[simp] theorem Status.issue_accErr (t : Status) : t.issue.accErr = t.accErr := rfl

/-! ### Status.badCmd -/

@[simp] theorem Status.badCmd_busy (t : Status) : t.badCmd.busy = t.busy := rfl
@[simp] theorem Status.badCmd_done (t : Status) : t.badCmd.done = true := rfl
@[simp] theorem Status.badCmd_code (t : Status) : t.badCmd.code = .badCmd := rfl
@[simp] theorem Status.badCmd_odd (t : Status) : t.badCmd.odd = false := rfl
@[simp] theorem Status.badCmd_nominal (t : Status) : t.badCmd.nominal = false := rfl
@[simp] theorem Status.badCmd_busyErr (t : Status) : t.badCmd.busyErr = t.busyErr := rfl
@[simp] theorem Status.badCmd_accErr (t : Status) : t.badCmd.accErr = t.accErr := rfl

/-! ### Status.complete -/

@[simp] theorem Status.complete_busy (t : Status) : t.complete.busy = false := rfl
@[simp] theorem Status.complete_done (t : Status) : t.complete.done = true := rfl
@[simp] theorem Status.complete_code (t : Status) : t.complete.code = t.code := rfl
@[simp] theorem Status.complete_odd (t : Status) : t.complete.odd = t.odd := rfl
@[simp] theorem Status.complete_nominal (t : Status) : t.complete.nominal = t.nominal := rfl
@[simp] theorem Status.complete_busyErr (t : Status) : t.complete.busyErr = t.busyErr := rfl
@[simp] theorem Status.complete_accErr (t : Status) : t.complete.accErr = t.accErr := rfl

/-! ### Status.clearSticky -/

@[simp] theorem Status.clearSticky_busy (t : Status) (v : Word) : (t.clearSticky v).busy = t.busy := rfl
@[simp] theorem Status.clearSticky_done (t : Status) (v : Word) : (t.clearSticky v).done = t.done := rfl
@[simp] theorem Status.clearSticky_code (t : Status) (v : Word) : (t.clearSticky v).code = t.code := rfl
@[simp] theorem Status.clearSticky_odd (t : Status) (v : Word) : (t.clearSticky v).odd = t.odd := rfl
@[simp] theorem Status.clearSticky_nominal (t : Status) (v : Word) : (t.clearSticky v).nominal = t.nominal := rfl
@[simp] theorem Status.clearSticky_busyErr (t : Status) (v : Word) : (t.clearSticky v).busyErr = (t.busyErr && !v.getLsbD 16) := rfl
@[simp] theorem Status.clearSticky_accErr (t : Status) (v : Word) : (t.clearSticky v).accErr = (t.accErr && !v.getLsbD 17) := rfl

/-! ### Status.payload -/

@[simp] theorem Status.payload_busy (t : Status) (p : Nat) : (t.payload p).busy = t.busy := rfl
@[simp] theorem Status.payload_done (t : Status) (p : Nat) : (t.payload p).done = t.done := rfl
@[simp] theorem Status.payload_code (t : Status) (p : Nat) : (t.payload p).code = t.code := rfl
@[simp] theorem Status.payload_odd (t : Status) (p : Nat) : (t.payload p).odd = decide (p % 2 = 1) := rfl
@[simp] theorem Status.payload_nominal (t : Status) (p : Nat) : (t.payload p).nominal = decide (p / 2 = Config.expectedSamples) := rfl
@[simp] theorem Status.payload_busyErr (t : Status) (p : Nat) : (t.payload p).busyErr = t.busyErr := rfl
@[simp] theorem Status.payload_accErr (t : Status) (p : Nat) : (t.payload p).accErr = t.accErr := rfl

end Sys2Proof.Machine
end

