-- ==== Sys2Proof/Laws/Commands.lean ====
section
/-! SUPPORT. What each shared operation of the commands and each command can do, said once. -/

namespace Sys2Proof.Machine

/-! ### Lookup -/

theorem lookup_of_lt {idx : Half} {s : State} (h : idx.toNat < s.candCount.toNat) :
    lookup idx s = some (s.candAt idx.toNat, s.putFrame idx (s.candAt idx.toNat).len) := by
  simp [lookup, h]

theorem lookup_of_le {idx : Half} {s : State} (h : s.candCount.toNat ≤ idx.toNat) : lookup idx s = none := by
  simp [lookup, Nat.not_lt.mpr h]

/-! ### Samples -/

/-- The reads of sample extraction succeed exactly where every byte of the groups has been written; then sample `k` is the
group at `a + 2k`. -/
theorem readSamples_ok {m : Memory} {bo : ByteOrder} {a n : Nat} {vs : List Half}
    (h : readSamples m bo a n = .ok vs) :
    vs.length = n ∧ ∀ k, k < n → ∃ lo hi, Memory.read m (a + 2 * k) = some lo ∧
      Memory.read m (a + 2 * k + 1) = some hi ∧ vs[k]? = some (BitVec.ofNat 16 (assemble [lo, hi] bo)) := by
  induction n generalizing a vs with
  | zero =>
    simp only [readSamples, Except.ok.injEq] at h
    subst h
    simp
  | succ n ih =>
    unfold readSamples at h
    split at h
    · cases h
    · rename_i bs hbs
      split at h
      · cases h
      · rename_i ws hws
        simp only [Except.ok.injEq] at h
        subst h
        simp only [Config.sampleBytes] at hws hbs
        obtain ⟨hl, hr⟩ := ih hws
        obtain ⟨hbl, hbr⟩ := (memRead_ok_iff _ _ _ _).mp hbs
        refine ⟨by simp [hl], fun k hk => ?_⟩
        match bs, hbl with
        | [lo, hi], _ =>
          cases k with
          | zero => exact ⟨lo, hi, by simpa using hbr 0 (by omega), by simpa using hbr 1 (by omega), by simp⟩
          | succ k =>
            obtain ⟨lo', hi', h1, h2, h3⟩ := hr k (by omega)
            refine ⟨lo', hi', ?_, ?_, by simpa using h3⟩
            · rw [← h1]; congr 1; omega
            · rw [← h2]; congr 1; omega

/-- Where every byte of the groups has been written, the reads of sample extraction succeed. -/
theorem readSamples_of_written {m : Memory} {bo : ByteOrder} {a n : Nat} (h : Written m a (2 * n)) :
    ∃ vs, readSamples m bo a n = .ok vs := by
  induction n generalizing a with
  | zero => exact ⟨[], rfl⟩
  | succ n ih =>
    obtain ⟨bs, hbs⟩ := memRead_of_written (m := m) (a := a) (n := Config.sampleBytes) fun j hj => h j (by
      simp only [Config.sampleBytes] at hj
      omega)
    obtain ⟨vs, hvs⟩ := ih (a := a + Config.sampleBytes) fun j hj => by
      rw [Nat.add_assoc]
      exact h (2 + j) (by omega)
    exact ⟨_, by unfold readSamples; rw [hbs, hvs]⟩

/-- Sample extraction depends on the bytes of its groups alone. -/
theorem readSamples_congr {m m' : Memory} {bo : ByteOrder} {a n : Nat}
    (h : ∀ j, j < 2 * n → Memory.read m' (a + j) = Memory.read m (a + j)) :
    readSamples m' bo a n = readSamples m bo a n := by
  induction n generalizing a with
  | zero => rfl
  | succ n ih =>
    have h1 : memRead m' a Config.sampleBytes = memRead m a Config.sampleBytes :=
      memRead_congr fun j hj => h j (by
        simp only [Config.sampleBytes] at hj
        omega)
    have h2 := ih (a := a + Config.sampleBytes) fun j hj => by
      rw [Nat.add_assoc]
      exact h (2 + j) (by omega)
    unfold readSamples
    rw [h1, h2]

/-! ### Byte order -/

theorem assemble_pair (bo : ByteOrder) (lo hi : Byte) : BitVec.ofNat 16 (assemble [lo, hi] bo) = pairOf bo lo hi := by
  apply BitVec.eq_of_toNat_eq
  have h1 := lo.isLt
  have h2 := hi.isLt
  cases bo <;>
  · simp only [assemble, assembleLittle, pairOf, List.reverse_cons, List.reverse_nil, List.nil_append,
      List.cons_append, BitVec.toNat_append, BitVec.toNat_ofNat]
    rw [← Nat.shiftLeft_add_eq_or_of_lt (by omega), Nat.shiftLeft_eq]
    omega

theorem assemble_quad (bo : ByteOrder) (b0 b1 b2 b3 : Byte) :
    BitVec.ofNat 32 (assemble [b0, b1, b2, b3] bo) = quadOf bo b0 b1 b2 b3 := by
  apply BitVec.eq_of_toNat_eq
  have h0 := b0.isLt
  have h1 := b1.isLt
  have h2 := b2.isLt
  have h3 := b3.isLt
  cases bo <;>
  · simp only [assemble, assembleLittle, quadOf, List.reverse_cons, List.reverse_nil, List.nil_append,
      List.cons_append, BitVec.toNat_append, BitVec.toNat_ofNat]
    rw [← Nat.shiftLeft_add_eq_or_of_lt (by omega), ← Nat.shiftLeft_add_eq_or_of_lt (by omega),
      ← Nat.shiftLeft_add_eq_or_of_lt (by omega), Nat.shiftLeft_eq, Nat.shiftLeft_eq, Nat.shiftLeft_eq]
    omega

/-- The timestamp extraction succeeds exactly where bytes 6..9 have been written. -/
theorem extractTs_ok_iff {c : Candidate} {s : State} {w : Word} :
    extractTs c s = .ok w ↔ ∃ b0 b1 b2 b3, Memory.read s.ibuf (c.start.toNat + 6) = some b0 ∧
      Memory.read s.ibuf (c.start.toNat + 7) = some b1 ∧ Memory.read s.ibuf (c.start.toNat + 8) = some b2 ∧
      Memory.read s.ibuf (c.start.toNat + 9) = some b3 ∧ w = quadOf s.cfg.bo b0 b1 b2 b3 := by
  unfold extractTs
  simp only [Config.tsOffset, Config.tsLen]
  constructor
  · intro h
    split at h
    · cases h
    · rename_i bs hbs
      simp only [Except.ok.injEq] at h
      subst h
      obtain ⟨hl, hr⟩ := (memRead_ok_iff _ _ _ _).mp hbs
      match bs, hl with
      | [b0, b1, b2, b3], _ =>
        exact ⟨b0, b1, b2, b3, by simpa using hr 0 (by omega), by simpa using hr 1 (by omega),
          by simpa using hr 2 (by omega), by simpa using hr 3 (by omega), assemble_quad ..⟩
  · rintro ⟨b0, b1, b2, b3, h0, h1, h2, h3, rfl⟩
    have : memRead s.ibuf (c.start.toNat + 6) 4 = .ok [b0, b1, b2, b3] := by
      refine (memRead_ok_iff _ _ _ _).mpr ⟨rfl, fun j hj => ?_⟩
      match j, hj with
      | 0, _ => simpa using h0
      | 1, _ => simpa using h1
      | 2, _ => simpa using h2
      | 3, _ => simpa using h3
    rw [this]
    simp only [assemble_quad]

/-! ### The commands -/

/-- SCAN: the capture has been read, the table is its split, CODE is OK. -/
theorem execScan_next (idx : Half) {s t : State} : execScan idx s = .next t ↔
    ∃ bs, readCapture s = .ok bs ∧ t = (s.putCandidates (split s.cfg.delim bs)).raise .ok := by
  unfold execScan
  cases readCapture s <;> simp [eq_comm]

/-- Sample extraction to the command's end: the samples have been read. -/
theorem finishSamples_next {c : Candidate} {s t : State} : finishSamples c s = .next t ↔
    ∃ vs, extractSamples c s = .ok vs ∧
      t = ((s.putSamples vs).payloadStatus (payloadLen s.params c.len)).raise .ok := by
  unfold finishSamples
  cases extractSamples c s <;> simp [eq_comm]

@[simp] theorem tooShort_iff (l : Half) : tooShort l = true ↔ l.toNat < 10 := by simp [tooShort]

/-- The timestamp depends on IBUF and CFG.BO alone. -/
theorem extractTs_congr (c : Candidate) {s t : State} (hm : t.ibuf = s.ibuf) (hc : t.cfg = s.cfg) :
    extractTs c t = extractTs c s := by
  unfold extractTs
  rw [hm, hc]

/-- The samples depend on IBUF, CFG.BO and the parameters alone. -/
theorem extractSamples_congr (c : Candidate) {s t : State} (hm : t.ibuf = s.ibuf) (hc : t.cfg = s.cfg)
    (hp : t.params = s.params) : extractSamples c t = extractSamples c s := by
  unfold extractSamples
  rw [hm, hc, hp]

/-- DEC_TS, case by case (R166). -/
theorem execDecTs_eq (idx : Half) (s : State) : execDecTs idx s =
    if s.candCount.toNat ≤ idx.toNat then .next (s.raise .badIndex)
    else if (s.candAt idx.toNat).len.toNat < 10 then .next (s.putFrame idx (s.candAt idx.toNat).len).raiseTooShort
    else match extractTs (s.candAt idx.toNat) s with
      | .error f => .fault f
      | .ok ts => .next (((s.putFrame idx (s.candAt idx.toNat).len).clearSamples.putTs ts).raise .ok) := by
  unfold execDecTs
  rcases Nat.lt_or_ge idx.toNat s.candCount.toNat with h | h
  · rw [lookup_of_lt h, if_neg (by omega)]
    simp only [tooShort_iff]
    rfl
  · rw [lookup_of_le h, if_pos h]

/-- DEC_SAMP, case by case (R167). -/
theorem execDecSamp_eq (idx : Half) (s : State) : execDecSamp idx s =
    if s.candCount.toNat ≤ idx.toNat then .next (s.raise .badIndex)
    else match extractSamples (s.candAt idx.toNat) s with
      | .error f => .fault f
      | .ok vs => .next (((((s.putFrame idx (s.candAt idx.toNat).len).putTs 0).putSamples vs).payloadStatus
          (payloadLen s.params (s.candAt idx.toNat).len)).raise .ok) := by
  unfold execDecSamp
  rcases Nat.lt_or_ge idx.toNat s.candCount.toNat with h | h
  · rw [lookup_of_lt h, if_neg (by omega)]
    rfl
  · rw [lookup_of_le h, if_pos h]

/-- DEC_FULL, case by case (R168). -/
theorem execDecFull_eq (idx : Half) (s : State) : execDecFull idx s =
    if s.candCount.toNat ≤ idx.toNat then .next (s.raise .badIndex)
    else if (s.candAt idx.toNat).len.toNat < 10 then .next (s.putFrame idx (s.candAt idx.toNat).len).raiseTooShort
    else match extractTs (s.candAt idx.toNat) s with
      | .error f => .fault f
      | .ok ts =>
        match extractSamples (s.candAt idx.toNat) s with
        | .error f => .fault f
        | .ok vs => .next (((((s.putFrame idx (s.candAt idx.toNat).len).putTs ts).putSamples vs).payloadStatus
            (payloadLen s.params (s.candAt idx.toNat).len)).raise .ok) := by
  unfold execDecFull
  rcases Nat.lt_or_ge idx.toNat s.candCount.toNat with h | h
  · rw [lookup_of_lt h, if_neg (by omega)]
    simp only [tooShort_iff]
    rfl
  · rw [lookup_of_le h, if_pos h]

/-- The three ways DEC_TS completes. -/
theorem execDecTs_next {idx : Half} {s t : State} : execDecTs idx s = .next t ↔
    (s.candCount.toNat ≤ idx.toNat ∧ t = s.raise .badIndex) ∨
    (idx.toNat < s.candCount.toNat ∧ (s.candAt idx.toNat).len.toNat < 10 ∧
      t = (s.putFrame idx (s.candAt idx.toNat).len).raiseTooShort) ∨
    (idx.toNat < s.candCount.toNat ∧ 10 ≤ (s.candAt idx.toNat).len.toNat ∧
      ∃ ts, extractTs (s.candAt idx.toNat) s = .ok ts ∧
        t = ((s.putFrame idx (s.candAt idx.toNat).len).clearSamples.putTs ts).raise .ok) := by
  rw [execDecTs_eq]
  rcases Nat.lt_or_ge idx.toNat s.candCount.toNat with h | h
  · rw [if_neg (by omega)]
    rcases Nat.lt_or_ge (s.candAt idx.toNat).len.toNat 10 with hl | hl
    · simp [hl, h, Nat.not_le.mpr h, eq_comm]
    · rw [if_neg (by omega)]
      cases extractTs (s.candAt idx.toNat) s with
      | error f => simp [h, hl, Nat.not_le.mpr h, Nat.not_lt.mpr hl]
      | ok ts =>
        simp only [h, hl, Nat.not_le.mpr h, Nat.not_lt.mpr hl, Except.ok.injEq, true_and, false_and, false_or]
        simp [eq_comm]
  · rw [if_pos h]
    simp [h, Nat.not_lt.mpr h, eq_comm]

/-- The two ways DEC_SAMP completes. -/
theorem execDecSamp_next {idx : Half} {s t : State} : execDecSamp idx s = .next t ↔
    (s.candCount.toNat ≤ idx.toNat ∧ t = s.raise .badIndex) ∨
    (idx.toNat < s.candCount.toNat ∧
      ∃ vs, extractSamples (s.candAt idx.toNat) s = .ok vs ∧
        t = ((((s.putFrame idx (s.candAt idx.toNat).len).putTs 0).putSamples vs).payloadStatus
          (payloadLen s.params (s.candAt idx.toNat).len)).raise .ok) := by
  rw [execDecSamp_eq]
  rcases Nat.lt_or_ge idx.toNat s.candCount.toNat with h | h
  · rw [if_neg (by omega)]
    cases extractSamples (s.candAt idx.toNat) s <;> simp [h, Nat.not_le.mpr h, eq_comm]
  · rw [if_pos h]
    simp [h, Nat.not_lt.mpr h, eq_comm]

/-- The three ways DEC_FULL completes. -/
theorem execDecFull_next {idx : Half} {s t : State} : execDecFull idx s = .next t ↔
    (s.candCount.toNat ≤ idx.toNat ∧ t = s.raise .badIndex) ∨
    (idx.toNat < s.candCount.toNat ∧ (s.candAt idx.toNat).len.toNat < 10 ∧
      t = (s.putFrame idx (s.candAt idx.toNat).len).raiseTooShort) ∨
    (idx.toNat < s.candCount.toNat ∧ 10 ≤ (s.candAt idx.toNat).len.toNat ∧
      ∃ ts vs, extractTs (s.candAt idx.toNat) s = .ok ts ∧ extractSamples (s.candAt idx.toNat) s = .ok vs ∧
        t = ((((s.putFrame idx (s.candAt idx.toNat).len).putTs ts).putSamples vs).payloadStatus
          (payloadLen s.params (s.candAt idx.toNat).len)).raise .ok) := by
  rw [execDecFull_eq]
  rcases Nat.lt_or_ge idx.toNat s.candCount.toNat with h | h
  · rw [if_neg (by omega)]
    rcases Nat.lt_or_ge (s.candAt idx.toNat).len.toNat 10 with hl | hl
    · simp [hl, h, Nat.not_le.mpr h, eq_comm]
    · rw [if_neg (by omega)]
      cases extractTs (s.candAt idx.toNat) s with
      | error f => simp [h, hl, Nat.not_le.mpr h, Nat.not_lt.mpr hl]
      | ok ts =>
        simp only [h, hl, Nat.not_le.mpr h, Nat.not_lt.mpr hl, Except.ok.injEq, true_and, false_and, false_or]
        cases extractSamples (s.candAt idx.toNat) s <;> simp [eq_comm]
  · rw [if_pos h]
    simp [h, Nat.not_lt.mpr h, eq_comm]

/-- No command is refused. -/
theorem exec_ne_refused (i : Instr) (s : State) (r : Refusal) : exec i s ≠ .refused r := by
  cases i <;> simp only [exec, execNop, execScan, execDecTs, execDecSamp, execDecFull, finishSamples] <;>
    repeat' split
  all_goals simp

/-! ### The capture and the table -/

/-- The capture, read: IN_LEN bytes, the cells' own (10_state.md R24). -/
theorem readCapture_ok {s : State} {bs : List Byte} (h : readCapture s = .ok bs) :
    bs.length = s.inLen.toNat ∧ ∀ j, j < s.inLen.toNat → Memory.read s.ibuf j = bs[j]? := by
  have := (memRead_ok_iff _ _ _ _).mp h
  exact ⟨this.1, fun j hj => by simpa using this.2 j hj⟩

/-- The capture can be read where every cell of it has been written. -/
theorem readCapture_of_written {s : State} (h : Written s.ibuf 0 s.inLen.toNat) : ∃ bs, readCapture s = .ok bs :=
  memRead_of_written h

/-- The table SCAN leaves: its entries are the split's (41_scanner.md R140). -/
theorem scan_table {s : State} {bs : List Byte} (h : readCapture s = .ok bs) :
    let t := (s.putCandidates (split s.cfg.delim bs)).raise .ok
    t.candCount.toNat = (split s.cfg.delim bs).length ∧
    (∀ j, j < (split s.cfg.delim bs).length → (split s.cfg.delim bs)[j]? = some (t.candAt j)) := by
  obtain ⟨hl, hr⟩ := readCapture_ok h
  have hb : (split s.cfg.delim bs).length ≤ 65536 := by
    have := split_length_le s.cfg.delim bs
    have := s.inLen.isLt
    omega
  refine ⟨?_, ?_⟩
  · simp; omega
  · intro j hj
    have : ((split s.cfg.delim bs) ++ s.candTable.drop (split s.cfg.delim bs).length)[j]? = (split s.cfg.delim bs)[j]? := by
      rw [List.getElem?_append_left hj]
    obtain ⟨c, hc⟩ : ∃ c, (split s.cfg.delim bs)[j]? = some c := ⟨_, List.getElem?_eq_getElem hj⟩
    rw [hc]
    simp [State.candAt, this, hc]

/-- A current table, entry by entry (10_state.md R40). -/
theorem tableCurrent_entry {s : State} (h : s.tableCurrent = true) :
    ∃ bs, readCapture s = .ok bs ∧ s.candCount.toNat = (split s.cfg.delim bs).length ∧
      ∀ i, i < s.candCount.toNat → (split s.cfg.delim bs)[i]? = some (s.candAt i) := by
  unfold State.tableCurrent at h
  cases hr : readCapture s with
  | error f => rw [hr] at h; cases h
  | ok bs =>
    rw [hr] at h
    obtain ⟨h1, h2⟩ := of_decide_eq_true h
    refine ⟨bs, rfl, h2, fun i hi => ?_⟩
    have : s.candTable[i]? = (split s.cfg.delim bs)[i]? := by rw [← h1, List.getElem?_take, if_pos hi]
    unfold State.candAt
    rw [this]
    cases hc : (split s.cfg.delim bs)[i]? with
    | some c => rfl
    | none => rw [List.getElem?_eq_none_iff] at hc; omega

end Sys2Proof.Machine
end

