-- ==== Sys2Proof/Laws/Step.lean ====
section
/-! SUPPORT. What one step can do, and one transaction: the inversions every invariant is derived from. -/

namespace Sys2Proof.Machine

/-- A turn of the ENGINE that has a next state: nothing was pending, or the command completed. -/
theorem engineStep_next {s t : State} : engineStep s = .next t ↔
    (s.pend = none ∧ t = s) ∨ ∃ i u, s.pend = some i ∧ exec i s = .next u ∧ t = u.complete := by
  unfold engineStep
  cases hp : s.pend with
  | none => simp [eq_comm]
  | some i =>
    cases he : exec i s with
    | next u => simp [he, eq_comm]
    | fault f => simp [he]
    | refused r => simp [he]

/-- The four turns of a step that has a next state (20_memory.md R79). -/
theorem step_next {s t : State} (h : step s = .next t) :
    (s.turns = [] ∧ engineStep s = .next t) ∨
    (∃ rest, s.turns = .engine :: rest ∧ engineStep { s with turns := rest } = .next t) ∨
    (∃ tr rest, s.turns = .host tr :: rest ∧ t = transact tr { s with turns := rest }) ∨
    ∃ rest, s.turns = .reset :: rest ∧ t = State.resetStep { s with turns := rest } := by
  unfold step at h
  split at h
  · rename_i ht
    exact .inl ⟨ht, h⟩
  · rename_i rest ht
    exact .inr (.inl ⟨rest, ht, h⟩)
  · rename_i tr rest ht
    exact .inr (.inr (.inl ⟨tr, rest, ht, by simpa using h.symm⟩))
  · rename_i rest ht
    exact .inr (.inr (.inr ⟨rest, ht, by simpa using h.symm⟩))

/-- A transaction is refused, or reads, or writes a writable location (20_memory.md R61, R68). -/
theorem transact_cases (tr : Transaction) (s : State) :
    (transact tr s = s.refuseAccess.respond (refusal tr)) ∨
    (∃ a sz l, tr = .read a sz ∧ locate s.params a sz = some l ∧
      transact tr s =
        (s.advanceDraws (readData s l).drawn).respond (.read .ok ((readData s l).value s.draws))) ∨
    ∃ a sz v l, tr = .write a sz v ∧ locate s.params a sz = some l ∧ l.writable = true ∧
      transact tr s = (writeLoc l v s).respond (.write .ok) := by
  cases tr with
  | read a sz =>
    cases hl : locate s.params a sz with
    | none => exact .inl (by simp only [transact, hl])
    | some l => exact .inr (.inl ⟨a, sz, l, rfl, hl, by simp only [transact, hl]⟩)
  | write a sz v =>
    cases hl : locate s.params a sz with
    | none => exact .inl (by simp only [transact, hl])
    | some l =>
      by_cases hw : l.writable = true
      · exact .inr (.inr ⟨a, sz, v, l, rfl, hl, hw, by simp only [transact, hl, hw, if_true]⟩)
      · exact .inl (by simp only [transact, hl, hw]; rfl)

/-- What an accepted write does (R70, R71, R73): STATUS clears sticky bits, a busy block ignores the rest, an idle one
issues a command or takes an input and invalidates the table. -/
theorem writeLoc_cases {l : Loc} (hw : l.writable = true) (v : Word) (s : State) :
    (l = .reg .status ∧ writeLoc l v s = { s with status := s.status.clearSticky v }) ∨
    (s.status.busy = true ∧ writeLoc l v s = s.ignoreBusy) ∨
    (s.status.busy = false ∧
      ((l = .reg .cmd ∧ writeLoc l v s = issue v s) ∨
        (l = .reg .cfg ∧ writeLoc l v s = ({ s with cfg := Cfg.ofWord v } : State).invalidate) ∨
        (l = .reg .inLen ∧ writeLoc l v s =
          ({ s with inLen := BitVec.ofNat 16 (min v.toNat s.params.ibufSize) } : State).invalidate) ∨
        ∃ i, l = .ibuf i ∧ writeLoc l v s =
          ({ s with ibuf := Memory.write s.ibuf i (v.extractLsb' 0 8) } : State).invalidate)) := by
  by_cases hs : l = .reg .status
  · exact .inl ⟨hs, by simp [writeLoc, hs]⟩
  · cases hb : s.status.busy with
    | true => exact .inr (.inl ⟨rfl, by simp [writeLoc, hs, hb]⟩)
    | false =>
      refine .inr (.inr ⟨rfl, ?_⟩)
      have hwl : writeLoc l v s = writeIdle l v s := by simp [writeLoc, hs, hb]
      rw [hwl]
      cases l with
      | reg r => cases r <;> simp_all [Loc.writable, writeIdle]
      | ibuf i => exact .inr (.inr (.inr ⟨i, rfl, rfl⟩))
      | samp k => simp [Loc.writable] at hw
      | candStart i => simp [Loc.writable] at hw
      | candLen i => simp [Loc.writable] at hw

/-- Of any machine: a run whose first step has a next state goes on from it. -/
theorem run_of_next (M : Host.Core) (k : Nat) {s t : M.State} (h : M.step s = .next t) :
    M.run (k + 1) s = M.run k t := by
  simp only [Host.Core.run, h]

/-- A run of no steps. -/
theorem core_run_zero (s : State) : Host.Core.run core 0 s = .next s := rfl

/-- A run whose first step has a next state goes on from it. -/
theorem core_run_of_next {s t : State} (k : Nat) (h : step s = .next t) :
    Host.Core.run core (k + 1) s = Host.Core.run core k t := run_of_next core k h

/-- The first step of a run that has a next state. -/
theorem core_run_next {s u : State} {k : Nat} (h : Host.Core.run core (k + 1) s = .next u) :
    ∃ t, step s = .next t ∧ Host.Core.run core k t = .next u := by
  cases hs : step s with
  | next t => exact ⟨t, rfl, (core_run_of_next k hs).symm.trans h⟩
  | fault f =>
    have : core.step s = .fault f := hs
    simp only [Host.Core.run, this] at h
    cases h
  | refused r =>
    have : core.step s = .refused r := hs
    simp only [Host.Core.run, this] at h
    cases h

/-- An IBUF location lies in IBUF (R64). -/
theorem locate_ibuf {p : Params} {a : Addr} {sz : Size} {i : Nat} (h : locate p a sz = some (.ibuf i)) :
    sz = .byte ∧ a.toNat = 0x10000 + i ∧ i < p.ibufSize := by
  cases sz with
  | byte =>
    simp only [locate, byteLoc] at h
    split at h
    · rename_i hc
      simp only [Option.some.injEq, Loc.ibuf.injEq] at h
      subst h
      exact ⟨rfl, by omega, hc.2.2⟩
    · cases h
  | word =>
    simp only [locate, wordLoc] at h
    split at h
    · cases hr : regAt a.toNat <;> simp [hr] at h
    · split at h
      · cases h
      · split at h
        · split at h <;> cases h
        · cases h

end Sys2Proof.Machine
end

