-- ==== Sys2Proof/Laws/Host.lean ====
section
/-! SUPPORT. Which accesses are accepted, and what one turn of the HOST does: one read, one write. -/

namespace Sys2Proof.Machine

/-- The register region: the aligned words `0x00000 .. 0x00024` (20_memory.md R62, R63). -/
theorem regAt_isSome (n : Nat) : (regAt n).isSome = true ↔ n ≤ 0x27 ∧ n % 4 = 0 := by
  by_cases h : n ≤ 0x27
  · have : ∀ k : Fin 40, (regAt k.val).isSome = true ↔ k.val ≤ 0x27 ∧ k.val % 4 = 0 := by decide
    exact this ⟨n, by omega⟩
  · unfold regAt
    split <;> simp_all

/-- The reads the address map accepts (R62-R66). -/
theorem locate_isSome (p : Params) (a : Addr) (sz : Size) : (locate p a sz).isSome = true ↔
    ReadAccepted p a.toNat sz := by
  have := a.isLt
  cases sz with
  | word =>
    have := regAt_isSome a.toNat
    simp only [locate, wordLoc, ReadAccepted]
    split
    · simp only [Option.isSome_map, this]; simp; omega
    · split
      · simp; omega
      · split
        · split <;> simp <;> omega
        · simp; omega
  | byte =>
    simp only [locate, byteLoc, ReadAccepted]
    split <;> simp_all

/-- The writable registers: CMD, STATUS, CFG, IN_LEN (R70). -/
theorem regAt_writable (n : Nat) (r : Reg) (h : regAt n = some r) :
    (Loc.reg r).writable = true ↔ (n = 0 ∨ n = 4 ∨ n = 8 ∨ n = 0xC) := by
  unfold regAt at h
  split at h <;> simp at h <;> subst h <;> simp [Loc.writable]

/-- The writes the address map accepts (R64, R70). -/
theorem locate_writable (p : Params) (a : Addr) (sz : Size) : (∃ l, locate p a sz = some l
    ∧ l.writable = true) ↔ WriteAccepted p a.toNat sz := by
  cases sz with
  | word =>
    simp only [locate, wordLoc, WriteAccepted, InputWriteAccepted]
    split
    · constructor
      · rintro ⟨l, hl, hw⟩
        obtain ⟨r, hr, rfl⟩ := Option.map_eq_some_iff.mp hl
        have := (regAt_writable _ _ hr).mp hw
        simp; omega
      · intro h
        simp at h
        have : (regAt a.toNat).isSome = true := (regAt_isSome _).mpr (by omega)
        obtain ⟨r, hr⟩ := Option.isSome_iff_exists.mp this
        exact ⟨_, by rw [hr]; rfl, (regAt_writable _ _ hr).mpr (by omega)⟩
    · constructor
      · rintro ⟨l, hl, hw⟩
        split at hl
        · cases hl; simp [Loc.writable] at hw
        · split at hl
          · split at hl <;> cases hl <;> simp [Loc.writable] at hw
          · cases hl
      · intro h; simp at h; omega
  | byte =>
    simp only [locate, byteLoc, WriteAccepted, InputWriteAccepted]
    split
    · simp_all [Loc.writable]
    · simp_all

/-- A turn that reads a location. -/
theorem step_read {s : State} {rest : List Turn} {a : Addr} {sz : Size} {l : Loc}
    (ht : s.turns = .host (.read a sz) :: rest) (hl : locate s.params a sz = some l) :
    step s = .next { s with
      turns := rest
      draws := s.draws + (readData s l).drawn
      log := .read .ok ((readData s l).value s.draws) :: s.log } := by
  simp only [step, ht, transact, hl]
  have : readData { s with turns := rest } l = readData s l := by cases l <;> rfl
  rw [this]; rfl

/-- A turn that reads a location whose value the rules fix. -/
theorem step_read_exact {s : State} {rest : List Turn} {a : Addr} {sz : Size} {l : Loc} {v : Word}
    (ht : s.turns = .host (.read a sz) :: rest) (hl : locate s.params a sz = some l) (h : readData s l = .exact v) :
    step s = .next { s with turns := rest, log := .read .ok v :: s.log } := by
  rw [step_read ht hl, h]; rfl

/-- A turn that reads a location that holds a word the rules leave open (R72). -/
theorem step_read_any {s : State} {rest : List Turn} {a : Addr} {sz : Size} {l : Loc}
    (ht : s.turns = .host (.read a sz) :: rest) (hl : locate s.params a sz = some l) (h : readData s l = .anyWord) :
    step s = .next { s with
      turns := rest
      draws := s.draws + 1
      log := .read .ok (Config.drawWord s.draws) :: s.log } := by
  rw [step_read ht hl, h]; rfl

/-- A turn that reads a result: exact while idle, any word while busy (R72). -/
theorem step_read_result {s : State} {rest : List Turn} {a : Addr} {sz : Size} {l : Loc} {v : Word}
    (ht : s.turns = .host (.read a sz) :: rest) (hl : locate s.params a sz = some l) (h : readData s l = s.result v) :
    step s =
      if s.status.busy then .next { s with
        turns := rest
        draws := s.draws + 1
        log := .read .ok (Config.drawWord s.draws) :: s.log }
      else .next { s with turns := rest, log := .read .ok v :: s.log } := by
  unfold State.result at h
  split at h
  · rename_i hb; rw [if_pos hb]; exact step_read_any ht hl h
  · rename_i hb; rw [if_neg hb]; exact step_read_exact ht hl h

/-- A turn that writes a writable location. -/
theorem step_write {s : State} {rest : List Turn} {a : Addr} {sz : Size} {l : Loc} {v : Word}
    (ht : s.turns = .host (.write a sz v) :: rest) (hl : locate s.params a sz = some l) (hw : l.writable = true) :
    step s = .next ((writeLoc l v { s with turns := rest }).respond (.write .ok)) := by
  simp only [step, ht, transact, hl, hw, if_true]

/-- A write while busy, STATUS apart (R71). -/
theorem writeLoc_busy {l : Loc} {v : Word} {s : State} {rest : List Turn} (h : l ≠ .reg .status)
    (hb : s.status.busy = true) : writeLoc l v { s with turns := rest } = State.ignoreBusy { s with turns := rest } := by
  unfold writeLoc; rw [if_neg h, if_pos hb]

/-- A write while idle, STATUS apart (R70). -/
theorem writeLoc_idle {l : Loc} {v : Word} {s : State} {rest : List Turn} (h : l ≠ .reg .status)
    (hb : s.status.busy = false) : writeLoc l v { s with turns := rest } = writeIdle l v { s with turns := rest } := by
  unfold writeLoc; rw [if_neg h, if_neg (by simp [hb])]

/-- An input write reaches CFG, IN_LEN or an IBUF cell (R73). -/
theorem inputWrite_loc {p : Params} {a : Addr} {sz : Size} (h : InputWriteAccepted p a.toNat sz) :
    ∃ l, locate p a sz = some l ∧ l.writable = true ∧ (l = .reg .cfg ∨ l = .reg .inLen ∨ ∃ i, l = .ibuf i) := by
  rcases h with ⟨rfl, h | h⟩ | ⟨rfl, h1, h2, h3⟩
  · exact ⟨.reg .cfg, by simp [locate, wordLoc, h, regAt], rfl, .inl rfl⟩
  · exact ⟨.reg .inLen, by simp [locate, wordLoc, h, regAt], rfl, .inr (.inl rfl)⟩
  · exact ⟨_, by simp only [locate, byteLoc]; rw [if_pos ⟨h1, h2, h3⟩], rfl, .inr (.inr ⟨_, rfl⟩)⟩

/-- STATUS has one address. -/
theorem locate_status {p : Params} {a : Addr} {sz : Size} (h : locate p a sz = some (.reg .status)) :
    a = 0x00004 ∧ sz = .word := by
  cases sz with
  | byte => simp only [locate, byteLoc] at h; split at h <;> cases h
  | word =>
    simp only [locate, wordLoc] at h
    split at h
    · cases hr : regAt a.toNat <;> simp [hr] at h
      subst h
      refine ⟨?_, rfl⟩
      apply BitVec.eq_of_toNat_eq
      unfold regAt at hr
      split at hr <;> simp_all
    · split at h
      · cases h
      · split at h
        · split at h <;> cases h
        · cases h

/-- A transaction leaves the schedule alone. -/
theorem transact_turns (tr : Transaction) (s : State) : (transact tr s).turns = s.turns := by
  rcases transact_cases tr s with h | ⟨a, sz, l, -, -, h⟩ | ⟨a, sz, v, l, rfl, hl, hw, h⟩ <;> rw [h]
  · rfl
  · rfl
  · rcases writeLoc_cases hw v s with ⟨_, h⟩ | ⟨_, h⟩ | ⟨hb, ⟨_, h⟩ | ⟨_, h⟩ | ⟨_, h⟩ | ⟨i, hi, h⟩⟩ <;> rw [h]
    · rfl
    · rfl
    · unfold issue; split <;> rfl
    · rfl
    · rfl
    · rfl

/-- While busy no transaction changes PEND: a second command is never latched (20_memory.md R71). -/
theorem transact_pend_of_busy (tr : Transaction) {s : State} (hs : s.status.busy = true) :
    (transact tr s).pend = s.pend := by
  rcases transact_cases tr s with h | ⟨a, sz, l, -, -, h⟩ | ⟨a, sz, v, l, rfl, hl, hw, h⟩ <;> rw [h]
  · rfl
  · rfl
  · rcases writeLoc_cases hw v s with ⟨_, h⟩ | ⟨_, h⟩ | ⟨hb, _⟩
    · rw [h]; rfl
    · rw [h]; rfl
    · rw [hs] at hb; cases hb

/-- Where a command is pending or DONE = 1 before a transaction, so it is after it: only the issue of a command clears DONE
(10_state.md R31). -/
theorem transact_pend_or_done (tr : Transaction) {s : State} (hd : s.pend.isSome = true ∨ s.status.done = true) :
    (transact tr s).pend.isSome = true ∨ (transact tr s).status.done = true := by
  rcases transact_cases tr s with h | ⟨a, sz, l, -, -, h⟩ | ⟨a, sz, v, l, rfl, hl, hw, h⟩ <;> rw [h]
  · exact hd
  · exact hd
  · rcases writeLoc_cases hw v s with ⟨_, h⟩ | ⟨_, h⟩ | ⟨hb, ⟨_, h⟩ | ⟨_, h⟩ | ⟨_, h⟩ | ⟨i, hi, h⟩⟩ <;> rw [h]
    · exact hd
    · exact hd
    · unfold issue
      split
      · exact .inl rfl
      · exact .inr rfl
    · exact hd
    · exact hd
    · exact hd

end Sys2Proof.Machine
end

