-- ==== Sys2Proof/Laws/PerInstr.lean ====
section
/-! SUPPORT. For each command: its word matches its row of spec/opcode_table.json (match under mask 0x0000FFFF), carries
its IDX in bits 31:16, and is a legal word (30_encoding.md R102). -/

namespace Sys2Proof.Laws.RowMatch

/-- The "match" of the command's row of the opcode table. -/
def rowMatch : Instr → Word
  | .nop _ => 0x00000000
  | .scan _ => 0x00000001
  | .decTs _ => 0x00000002
  | .decSamp _ => 0x00000003
  | .decFull _ => 0x00000004

/-- The word of `i` under its row's mask is its row's match, and its upper half is its index. -/
def Statement (i : Instr) : Prop :=
  encode i &&& 0x0000FFFF = rowMatch i ∧ (encode i).extractLsb' 16 16 = i.index ∧ wordLegal (encode i) = true

theorem word_fields (idx : Half) (low : BitVec 16) :
    (idx ++ low) &&& 0x0000FFFF#32 = low.setWidth 32 ∧ (idx ++ low).extractLsb' 16 16 = idx ∧
      (idx ++ low).extractLsb' 0 4 = low.extractLsb' 0 4 ∧ (idx ++ low).extractLsb' 4 12 = low.extractLsb' 4 12 := by
  have h1 := idx.isLt
  have h2 := low.isLt
  have hn : (idx ++ low).toNat = idx.toNat * 65536 + low.toNat := by
    rw [BitVec.toNat_append, ← Nat.shiftLeft_add_eq_or_of_lt (by omega), Nat.shiftLeft_eq]
  refine ⟨?_, ?_, ?_, ?_⟩ <;> apply BitVec.eq_of_toNat_eq
  · rw [BitVec.toNat_and, hn, show (0x0000FFFF#32).toNat = 2 ^ 16 - 1 from rfl, Nat.and_two_pow_sub_one_eq_mod,
      BitVec.toNat_setWidth]
    omega
  all_goals
    simp only [BitVec.extractLsb'_toNat, hn, Nat.shiftRight_eq_div_pow]
    omega

theorem statement_of_opcode {i : Instr} (ho : i.opcode.toNat ≤ 4)
    (hr : (0#12 ++ i.opcode).setWidth 32 = rowMatch i) : Statement i := by
  obtain ⟨h1, h2, h3, h4⟩ := word_fields i.index (0#12 ++ i.opcode)
  refine ⟨h1.trans hr, h2, ?_⟩
  have ho3 : (0#12 ++ i.opcode).extractLsb' 0 4 = i.opcode := by
    apply BitVec.eq_of_toNat_eq
    simp only [BitVec.extractLsb'_toNat, BitVec.toNat_append, Nat.shiftRight_eq_div_pow]
    have := i.opcode.isLt
    simp
    omega
  have ho4 : (0#12 ++ i.opcode).extractLsb' 4 12 = 0#12 := by
    apply BitVec.eq_of_toNat_eq
    simp only [BitVec.extractLsb'_toNat, BitVec.toNat_append, Nat.shiftRight_eq_div_pow]
    have := i.opcode.isLt
    simp
    omega
  unfold wordLegal
  rw [Bool.and_eq_true, decide_eq_true_eq, decide_eq_true_eq]
  exact ⟨by rw [show encode i = i.index ++ (0#12 ++ i.opcode) from rfl, h3, ho3]; exact ho,
    by rw [show encode i = i.index ++ (0#12 ++ i.opcode) from rfl, h4, ho4]⟩

theorem nop (idx : BitVec 16) : Statement (.nop idx) :=
  statement_of_opcode (by simp [Instr.opcode]) (by simp only [Instr.opcode, rowMatch]; decide)

theorem scan (idx : BitVec 16) : Statement (.scan idx) :=
  statement_of_opcode (by simp [Instr.opcode]) (by simp only [Instr.opcode, rowMatch]; decide)

theorem decTs (idx : BitVec 16) : Statement (.decTs idx) :=
  statement_of_opcode (by simp [Instr.opcode]) (by simp only [Instr.opcode, rowMatch]; decide)

theorem decSamp (idx : BitVec 16) : Statement (.decSamp idx) :=
  statement_of_opcode (by simp [Instr.opcode]) (by simp only [Instr.opcode, rowMatch]; decide)

theorem decFull (idx : BitVec 16) : Statement (.decFull idx) :=
  statement_of_opcode (by simp [Instr.opcode]) (by simp only [Instr.opcode, rowMatch]; decide)

end Sys2Proof.Laws.RowMatch
end

