-- ==== Sys2Proof/Tests/Slice0.lean ====
section
/-! SUPPORT. Smoke tests of the checks, words written out from the opcode map, the vectors of spec/95_test_vectors.md
(named beside each), and for each statement with hypotheses a state and operands that meet them all. -/

namespace Sys2Proof.Tests
open Sys2Proof.Machine

/-! ## Helpers -/

/-- The next state of an outcome, if there is one. -/
def after : Host.Outcome State Fault Refusal → Option State
  | .next t => some t
  | .fault _ => none
  | .refused _ => none

/-- The fault of an outcome, if there is one. -/
def faultOf : Host.Outcome State Fault Refusal → Option Fault
  | .next _ => none
  | .fault f => some f
  | .refused _ => none

/-- An instance with PAYLOAD_OFFSET `off` whose IBUF holds exactly `bs`, IN_LEN at its length, idle. -/
def loaded (off : Nat) (bo : ByteOrder) (bs : List Byte) : State :=
  { State.resetWith ⟨4096, off⟩ with
    ibuf := (List.range bs.length).zip bs
    inLen := BitVec.ofNat 16 bs.length
    cfg := ⟨0x3A, bo⟩ }

/-- The state after a command run from `s`; `s` itself where the command does not complete. -/
def ran (i : Instr) (s : State) : State :=
  match exec i s with
  | .next t => t.complete
  | .fault _ => s
  | .refused _ => s

/-- A loaded capture after SCAN. -/
def scanned (off : Nat) (bo : ByteOrder) (bs : List Byte) : State := ran (.scan 0) (loaded off bo bs)

/-- The same state with a schedule. -/
def sched (s : State) (ts : List Turn) : State := { s with turns := ts }

/-- The same state with a command pending. -/
def pending (i : Instr) (s : State) : State := { s with pend := some i, status := s.status.issue }

/-- V1 of 95_test_vectors.md. -/
def v1 : List Byte := [0, 0, 0, 0, 0, 0, 0xD2, 0x04, 0, 0, 0, 0, 0, 0, 0x01, 0, 0xFF, 0xFF, 0x07, 0]

/-- F4 of program P3. -/
def f4 : List Byte :=
  [1, 2, 3, 4, 5, 6, 0xD1, 0x07, 0, 0, 0x64, 0, 0xC8, 0, 0x2C, 1, 0x90, 1, 0xF4, 1, 0x58, 2, 0xBC, 2]

/-- Ten bytes with the timestamp bytes 78 56 34 12 (T-9, T-10). -/
def t9 : List Byte := [0, 0, 0, 0, 0, 0, 0x78, 0x56, 0x34, 0x12]

/-! ## The checks (00_scope.md R7, 30_encoding.md R102) -/

theorem test_ibuf_size_zero_refused : ¬Params.Valid ⟨0, 10⟩ := by decide
theorem test_ibuf_size_65536_refused : ¬Params.Valid ⟨65536, 10⟩ := by decide
theorem test_payload_offset_9_refused : ¬Params.Valid ⟨4096, 9⟩ := by decide
theorem test_payload_offset_256_refused : ¬Params.Valid ⟨4096, 256⟩ := by decide
theorem test_params_at_their_bounds : Params.Valid ⟨1, 10⟩ ∧ Params.Valid ⟨65535, 255⟩ := by decide
theorem test_reserved_op_illegal : wordLegal 0x00000005 = false ∧ wordLegal 0x0000000F = false := by decide
theorem test_reserved_bits_illegal : wordLegal 0x00000014 = false ∧ wordLegal 0x00008000 = false := by decide
theorem test_every_idx_legal : wordLegal 0xFFFF0000 = true ∧ wordLegal 0xFFFF0004 = true := by decide

/-! ## Decoding: IDX (16 bits), RSV (12 bits), OP (4 bits), most significant first (R100-R102) -/

theorem test_decode_nop : decodeTableWord 32 0b00000000000000000000000000000000 = some (.nop 0) := by decide
theorem test_decode_scan : decodeTableWord 32 0b10000000000000000000000000000001 = some (.scan 0x8000) := by decide
theorem test_decode_dec_ts : decodeTableWord 32 0b00000000000000110000000000000010 = some (.decTs 3) := by decide
theorem test_decode_dec_samp : decodeTableWord 32 0b11111111111111110000000000000011 = some (.decSamp 0xFFFF) := by
  decide
theorem test_decode_dec_full : decodeTableWord 32 0b00000000000000010000000000000100 = some (.decFull 1) := by decide
theorem test_decode_refuses : decodeTableWord 32 0b00000000000000000000000000000101 = none ∧
    decodeTableWord 32 0b00000000000000000000000000010100 = none := by decide

/-! ## Memory -/

theorem test_memory_rising : Memory.write (Memory.write [] 5 0xAA) 2 0xBB = [(2, 0xBB), (5, 0xAA)] := by decide
theorem test_memory_overwrite : Memory.write [(2, 0xBB), (5, 0xAA)] 5 0x11 = [(2, 0xBB), (5, 0x11)] := by decide
theorem test_memory_wf_refuses_repeats : Memory.wf [(2, 0xBB), (2, 0xAA)] = false := by decide
theorem test_reset_memory_wf : Memory.wf State.reset.ibuf = true := by decide

/-! ## The commands -/

/-- C-2: NOP with IDX 0xFFFF, written to CMD and completed. -/
theorem test_nop : (after (Host.Core.run core 2
    (sched State.reset [.host (.write 0x00000 .word 0xFFFF0000), .engine]))).map (fun t => t.status.word) =
    some 0x00000002 := by decide

/-- C-7: the issue of NOP clears ODD. -/
theorem test_nop_clears_odd : (after (Host.Core.run core 2
    (sched { State.reset with status := ⟨false, true, .ok, true, false, false, false⟩ }
      [.host (.write 0x00000 .word 0), .engine]))).map (fun t => t.status.word) = some 0x00000002 := by decide

/-- S-7: two delimiters side by side. -/
theorem test_scan : (after (exec (.scan 0) (loaded 10 .little [0x61, 0x3A, 0x3A, 0x62]))).map
    (fun t => (t.candCount, t.candTable)) = some (3, [⟨0, 1⟩, ⟨2, 0⟩, ⟨3, 1⟩]) := by decide

/-- S-12: IN_LEN = 5 with four bytes written. -/
theorem test_scan_unwritten : faultOf (exec (.scan 0) { loaded 10 .little [1, 2, 3, 4] with inLen := 5 }) =
    some (.uninitRead 4) := by decide

/-- T-9 and T-10: the two byte orders. -/
theorem test_dec_ts : (ran (.decTs 0) (scanned 10 .little t9)).resTs = 0x12345678 ∧
    (ran (.decTs 0) (scanned 10 .big t9)).resTs = 0x78563412 := by decide

/-- T-2: nine bytes are too short. -/
theorem test_dec_ts_too_short : (ran (.decTs 0) (scanned 10 .little [0, 0, 0, 0, 0, 0, 0, 0, 0])).status.word =
    0x00000012 := by decide

/-- D-10: seven samples and an odd byte. -/
theorem test_dec_samp : (ran (.decSamp 0) (scanned 10 .little (f4 ++ [0]))).status.word = 0x00000302 ∧
    (ran (.decSamp 0) (scanned 10 .little (f4 ++ [0]))).resSamp = [100, 200, 300, 400, 500, 600, 700] := by decide

/-- D-1: a candidate of three bytes decodes to no samples. -/
theorem test_dec_samp_short : (ran (.decSamp 0) (scanned 10 .little [0x61, 0x62, 0x63])).status.word = 0x00000002 := by
  decide

/-- F-7: the source's example at PAYLOAD_OFFSET 10. -/
theorem test_dec_full : (ran (.decFull 0) (scanned 10 .little v1)).resTs = 1234 ∧
    (ran (.decFull 0) (scanned 10 .little v1)).resSamp = [0, 0, 1, 0xFFFF, 7] := by decide

/-- F-8: the same bytes at PAYLOAD_OFFSET 14. -/
theorem test_dec_full_offset_14 : (ran (.decFull 0) (scanned 14 .little v1)).resTs = 1234 ∧
    (ran (.decFull 0) (scanned 14 .little v1)).resSamp = [1, 0xFFFF, 7] := by decide

/-! ## Host access -/

/-- C-3: an illegal word is BAD_CMD at once. -/
theorem test_bad_cmd : (transact (.write 0x00000 .word 5) State.reset).status.word = 0x00000032 := by decide

/-- C-9: while BUSY = 1 the same word sets BUSY_ERR and is not decoded. -/
theorem test_busy_cmd : (transact (.write 0x00000 .word 5) (pending (.scan 0) State.reset)).status.word =
    0x00010001 := by decide

/-- H-2: PARAM, at PAYLOAD_OFFSET 14. -/
theorem test_param : (transact (.read 0x00010 .word) (State.resetWith ⟨4096, 14⟩)).log = [.read .ok 0x070E1000] := by
  decide

/-- H-5: a misaligned register read. -/
theorem test_misaligned : (transact (.read 0x00006 .word) State.reset).log = [.read .err 0] ∧
    (transact (.read 0x00006 .word) State.reset).status.word = 0x00020000 := by decide

/-- H-11: IN_LEN clamps the full 32-bit value. -/
theorem test_in_len_clamps : (transact (.write 0x0000C .word 0x00010005) State.reset).inLen = 4096 := by decide

/-- H-12: CFG reads its nine bits. -/
theorem test_cfg : (transact (.read 0x00008 .word) (transact (.write 0x00008 .word 0xFFFFFFFF) State.reset)).log.head? =
    some (.read .ok 0x000001FF) := by decide

/-- H-13: one sticky bit cleared. -/
theorem test_sticky : (transact (.write 0x00004 .word 0x00010000)
    { State.reset with status := ⟨false, true, .ok, false, false, true, true⟩ }).status.word = 0x00020002 := by decide

/-- H-15: a sample reads sign-extended (sample 3 of F-7 is -1). -/
theorem test_sample_sign : (transact (.read 0x2000C .word) (ran (.decFull 0) (scanned 10 .little v1))).log =
    [.read .ok 0xFFFFFFFF] := by decide

/-- H-18 and H-19: entry 1 of the table, and one past its end. -/
theorem test_cand_window :
    (transact (.read 0x8000C .word) (scanned 10 .little [0x3A, 0x61, 0x62, 0x63])).log = [.read .ok 3] ∧
      (transact (.read 0x80010 .word) (scanned 10 .little [0x3A, 0x61, 0x62, 0x63])).log = [.read .ok 0] := by decide

/-! ## A command word placed in front of the machine -/

/-- DEC_TS 0 right after reset: BAD_INDEX (T-1). -/
theorem test_fetch_word : (after (step (State.reset.withFetchWord 32 0x00000002))).map (fun t => t.status.word) =
    some 0x00000022 := by decide

/-- An illegal word right after reset: BAD_CMD. -/
theorem test_fetch_illegal_word : (after (step (State.reset.withFetchWord 32 0x00000014))).map
    (fun t => t.status.word) = some 0x00000032 := by decide

/-! ## Witnesses: for each statement with hypotheses, a case that meets them

Named `witness_<statement>`; where a statement has several clauses, each has its case, at a boundary where it has one. -/

theorem witness_DecodeAndEncodeAgree : ∃ v i, decode v = .ok i := ⟨0xFFFF0004, _, rfl⟩

theorem witness_EngineTurnRunsPendingCommand :
    (sched (pending (.scan 7) State.reset) [.engine]).turns = [.engine] ∧
      (sched (pending (.scan 7) State.reset) [.engine]).pend = some (.scan 7) := by decide

theorem witness_ScheduleWithoutEngineWork :
    State.reset.turns = [] ∧ State.reset.pend = none ∧ (sched State.reset [.engine]).turns = [.engine] ∧
      (sched State.reset [.engine]).pend = none ∧ (pending (.nop 0) State.reset).turns = [] := by decide

theorem witness_IssueLatchesLegalCommand : decode 0x00010004 = .ok (.decFull 1) ∧
    (sched State.reset [.host (.write 0x00000 .word 0x00010004)]).status.busy = false ∧
      (sched (pending (.scan 0) State.reset) [.host (.write 0x00000 .word 0x00010004)]).status.busy = true := by decide

theorem witness_IllegalWordCompletesWithBadCmd : State.reset.status.busy = false ∧
    5 ≤ ((0x00000005 : Word).extractLsb' 0 4).toNat ∧ 5 ≤ ((0x0000000F : Word).extractLsb' 0 4).toNat ∧
      (0x00000014 : Word).extractLsb' 4 12 ≠ 0 ∧ (0x00008000 : Word).extractLsb' 4 12 ≠ 0 := by decide

theorem witness_PlacedWordRunsNext : decodeTableWord 32 0xFFFF0004 = some (.decFull 0xFFFF) ∧
    decodeTableWord 32 0x00000005 = none := by decide

/-- The least and the greatest IDX, idle and busy. -/
theorem witness_NopOnlySetsCodeOk : (0x00000000 : Word) &&& 0x0000FFFF = 0 ∧ (0xFFFF0000 : Word) &&& 0x0000FFFF = 0 ∧
    State.reset.status.busy = false ∧ State.reset.pend = none ∧
      (sched State.reset [.host (.write 0x00000 .word 0xFFFF0000), .engine]).turns =
        [.host (.write 0x00000 .word 0xFFFF0000), .engine] ∧
      (pending (.scan 0) State.reset).status.busy = true := by decide

/-- A capture of no byte, of one byte, and of a delimiter between two bytes. -/
theorem witness_ScanWritesTheSplit : Written State.reset.ibuf 0 State.reset.inLen.toNat ∧ State.reset.inLen = 0 ∧
    Written (loaded 10 .little [0x61]).ibuf 0 (loaded 10 .little [0x61]).inLen.toNat ∧
      (loaded 10 .little [0x61]).inLen = 1 ∧
    (Written (loaded 10 .little [0x61, 0x3A, 0x62]).ibuf 0 (loaded 10 .little [0x61, 0x3A, 0x62]).inLen.toNat) ∧
      (loaded 10 .little [0x61, 0x3A, 0x62]).inLen ≠ 0 := by
  unfold Written
  decide

theorem witness_ScanCountsDelimiters : (∃ t, exec (.scan 0) State.reset = .next t) ∧
    (∃ t, exec (.scan 0) (loaded 10 .little [0x3A]) = .next t) ∧
      (loaded 10 .little [0x3A]).inLen.toNat ≤ (loaded 10 .little [0x3A]).params.ibufSize :=
  ⟨⟨_, rfl⟩, ⟨_, rfl⟩, by decide⟩

theorem witness_ScanRoundTrip : ∃ t, exec (.scan 0) (loaded 10 .little [0x3A, 0x61]) = .next t := ⟨_, rfl⟩

theorem witness_ScanFaultsAtFirstUnwrittenCell :
    exec (.scan 0) { loaded 10 .little [1, 2] with inLen := 3 } = .fault (.uninitRead 2) := rfl

theorem witness_CommandsAreIdempotent : ∃ t, exec (.decFull 0) (scanned 10 .little t9) = .next t := ⟨_, rfl⟩

/-- Of a table of two candidates, the last index and the first past it. -/
theorem witness_LookupDecidesBadIndex :
    (scanned 10 .little [0x3A]).candCount.toNat ≤ (2 : Half).toNat ∧
      (1 : Half).toNat < (scanned 10 .little [0x3A]).candCount.toNat ∧
      (∃ t, exec (.decTs 1) (scanned 10 .little [0x3A]) = .next t) ∧
      (∃ t, exec (.decSamp 1) (scanned 10 .little [0x3A]) = .next t) ∧
      ∃ t, exec (.decFull 1) (scanned 10 .little [0x3A]) = .next t :=
  ⟨by decide, by decide, ⟨_, rfl⟩, ⟨_, rfl⟩, ⟨_, rfl⟩⟩

/-- Candidates of 9 and of 10 bytes. -/
theorem witness_LengthValidator :
    ((0 : Half).toNat < (scanned 10 .little [0, 0, 0, 0, 0, 0, 0, 0, 0]).candCount.toNat ∧
      ((scanned 10 .little [0, 0, 0, 0, 0, 0, 0, 0, 0]).candAt 0).len.toNat = 9) ∧
    ((0 : Half).toNat < (scanned 10 .little t9).candCount.toNat ∧
      ((scanned 10 .little t9).candAt 0).len.toNat = 10) ∧
    (∃ t, exec (.decTs 0) (scanned 10 .little t9) = .next t) ∧
    ∃ t, exec (.decSamp 0) (scanned 10 .little t9) = .next t :=
  ⟨by decide, by decide, ⟨_, rfl⟩, ⟨_, rfl⟩⟩

theorem witness_DecTsExtractsTimestamp :
    (0 : Half).toNat < (scanned 10 .big t9).candCount.toNat ∧ 10 ≤ ((scanned 10 .big t9).candAt 0).len.toNat ∧
      Memory.read (scanned 10 .big t9).ibuf (((scanned 10 .big t9).candAt 0).start.toNat + 6) = some 0x78 ∧
      Memory.read (scanned 10 .big t9).ibuf (((scanned 10 .big t9).candAt 0).start.toNat + 7) = some 0x56 ∧
      Memory.read (scanned 10 .big t9).ibuf (((scanned 10 .big t9).candAt 0).start.toNat + 8) = some 0x34 ∧
      Memory.read (scanned 10 .big t9).ibuf (((scanned 10 .big t9).candAt 0).start.toNat + 9) = some 0x12 := by decide

/-- A payload of one sample and an odd byte, and a candidate with no payload. -/
theorem witness_DecSampExtractsSamples :
    (0 : Half).toNat < (scanned 10 .little (t9 ++ [1, 2, 3])).candCount.toNat ∧
      payloadOf (scanned 10 .little (t9 ++ [1, 2, 3])) 0 = 3 ∧
      Written (scanned 10 .little (t9 ++ [1, 2, 3])).ibuf
        (((scanned 10 .little (t9 ++ [1, 2, 3])).candAt 0).start.toNat + 10)
        (2 * (payloadOf (scanned 10 .little (t9 ++ [1, 2, 3])) 0 / 2)) ∧
      payloadOf (scanned 10 .little [0x61]) 0 = 0 ∧
      Written (scanned 10 .little [0x61]).ibuf (((scanned 10 .little [0x61]).candAt 0).start.toNat + 10)
        (2 * (payloadOf (scanned 10 .little [0x61]) 0 / 2)) := by
  unfold Written
  decide

theorem witness_DecFullExtractsFrame :
    (0 : Half).toNat < (scanned 10 .little (t9 ++ [1, 2])).candCount.toNat ∧
      10 ≤ ((scanned 10 .little (t9 ++ [1, 2])).candAt 0).len.toNat ∧
      Memory.read (scanned 10 .little (t9 ++ [1, 2])).ibuf 6 = some 0x78 ∧
      Memory.read (scanned 10 .little (t9 ++ [1, 2])).ibuf 7 = some 0x56 ∧
      Memory.read (scanned 10 .little (t9 ++ [1, 2])).ibuf 8 = some 0x34 ∧
      Memory.read (scanned 10 .little (t9 ++ [1, 2])).ibuf 9 = some 0x12 ∧
      Written (scanned 10 .little (t9 ++ [1, 2])).ibuf
        (((scanned 10 .little (t9 ++ [1, 2])).candAt 0).start.toNat + 10)
        (2 * (payloadOf (scanned 10 .little (t9 ++ [1, 2])) 0 / 2)) := by
  unfold Written
  decide

/-- A candidate of 10 bytes and one of 1. -/
theorem witness_FullDecodeEqualsItsParts :
    ((0 : Half).toNat < (scanned 10 .little t9).candCount.toNat ∧
      10 ≤ ((scanned 10 .little t9).candAt 0).len.toNat) ∧
    ((0 : Half).toNat < (scanned 10 .little [1]).candCount.toNat ∧
      ((scanned 10 .little [1]).candAt 0).len.toNat < 10) ∧
    (∃ a, exec (.decTs 0) (scanned 10 .little t9) = .next a) ∧
    (∃ b, exec (.decSamp 0) (scanned 10 .little t9) = .next b) ∧
    (∃ a, exec (.decTs 0) (scanned 10 .little [1]) = .next a) ∧
    ∃ b, exec (.decSamp 0) (scanned 10 .little [1]) = .next b :=
  ⟨by decide, by decide, ⟨_, rfl⟩, ⟨_, rfl⟩, ⟨_, rfl⟩, ⟨_, rfl⟩⟩

/-- Byte 0 of the candidate replaced. -/
theorem witness_DecodeDependsOnlyOnItsFields :
    (∀ j, j < 10 → 6 ≤ j → Memory.read (Memory.write (scanned 10 .little t9).ibuf 0 0xEE) (0 + j) =
      Memory.read (scanned 10 .little t9).ibuf (0 + j)) ∧
    ((scanned 10 .little t9).candAt 0).start.toNat = 0 ∧ payloadOf (scanned 10 .little t9) 0 = 0 ∧
    Memory.write (scanned 10 .little t9).ibuf 0 0xEE ≠ (scanned 10 .little t9).ibuf := by decide

/-- A state with a current table is consistent. -/
theorem scanned_consistent : Inv (scanned 10 .little [0x3A, 0x61]) :=
  ⟨by decide, by decide, by decide, by decide, by decide, by decide, by decide, by decide⟩

/-- So is one with a command pending and a schedule. -/
theorem pending_consistent : Inv (sched (pending (.decFull 1) (scanned 10 .little [0x3A, 0x61])) [.engine]) :=
  ⟨by decide, by decide, by decide, by decide, by decide, by decide, by decide, by decide⟩

/-- And one whose SCAN will meet an unwritten cell. -/
theorem unwritten_consistent : Inv (pending (.scan 0) { loaded 10 .little [1, 2] with inLen := 3 }) :=
  ⟨by decide, by decide, by decide, by decide, by decide, by decide, by decide, by decide⟩

theorem witness_CandidatesLieInTheCapture :
    Inv (scanned 10 .little [0x3A, 0x61]) ∧ 1 < (scanned 10 .little [0x3A, 0x61]).candCount.toNat :=
  ⟨scanned_consistent, by decide⟩

theorem witness_DecodeNeverFaults : Inv (scanned 10 .little [0x3A, 0x61]) := scanned_consistent

theorem witness_ResetStatesAreConsistent : Params.Valid ⟨1, 10⟩ ∧ Params.Valid ⟨65535, 255⟩ := by decide

theorem witness_StepKeepsConsistency :
    Inv (sched (pending (.decFull 1) (scanned 10 .little [0x3A, 0x61])) [.engine]) ∧
      ∃ t, step (sched (pending (.decFull 1) (scanned 10 .little [0x3A, 0x61])) [.engine]) = .next t :=
  ⟨pending_consistent, ⟨_, rfl⟩⟩

/-- Both outcomes occur in consistent states. -/
theorem witness_OnlyScanOfUnwrittenBytesFaults :
    Inv (scanned 10 .little [0x3A, 0x61]) ∧
      Inv (pending (.scan 0) { loaded 10 .little [1, 2] with inLen := 3 }) ∧
      step (pending (.scan 0) { loaded 10 .little [1, 2] with inLen := 3 }) = .fault (.uninitRead 2) :=
  ⟨scanned_consistent, unwritten_consistent, rfl⟩

/-- A command pending with no turn left, with the ENGINE's turn behind a HOST read, and with a reset among the turns. -/
theorem witness_PendingCommandCompletes :
    (Inv (pending (.decFull 1) (scanned 10 .little [0x3A, 0x61])) ∧
      ∃ t, Host.Core.run core 1 (pending (.decFull 1) (scanned 10 .little [0x3A, 0x61])) = .next t) ∧
    (Inv (sched (pending (.scan 0) State.reset) [.host (.read 0x00004 .word), .engine]) ∧
      Turn.reset ∉ (sched (pending (.scan 0) State.reset) [.host (.read 0x00004 .word), .engine]).turns ∧
      ∃ t, Host.Core.run core 3 (sched (pending (.scan 0) State.reset) [.host (.read 0x00004 .word), .engine]) =
        .next t) ∧
    (Inv (sched (pending (.scan 0) State.reset) [.reset]) ∧
      ∃ t, Host.Core.run core 2 (sched (pending (.scan 0) State.reset) [.reset]) = .next t) :=
  ⟨⟨⟨by decide, by decide, by decide, by decide, by decide, by decide, by decide, by decide⟩, ⟨_, rfl⟩⟩,
    ⟨⟨by decide, by decide, by decide, by decide, by decide, by decide, by decide, by decide⟩, by decide, ⟨_, rfl⟩⟩,
    ⟨⟨by decide, by decide, by decide, by decide, by decide, by decide, by decide, by decide⟩, ⟨_, rfl⟩⟩⟩

theorem witness_DecTsFaultsAtFirstUnwrittenCell :
    exec (.decTs 0) { scanned 10 .little t9 with ibuf := [(6, 1), (7, 1)] } = .fault (.uninitRead 8) := rfl

theorem witness_CommandFootprint : (∃ t, exec (.scan 0) (loaded 10 .little [0x3A]) = .next t) ∧
    ∃ t, exec (.decSamp 0) (scanned 10 .little [0x3A]) = .next t := ⟨⟨_, rfl⟩, ⟨_, rfl⟩⟩

/-- Accepted and refused accesses on both sides of the boundaries of the map. -/
theorem witness_RefusedAccessSetsAccErrOnly :
    ReadAccepted ⟨4096, 10⟩ 0x00024 .word ∧ ¬ReadAccepted ⟨4096, 10⟩ 0x00028 .word ∧
      ReadAccepted ⟨4096, 10⟩ 0x10FFF .byte ∧ ¬ReadAccepted ⟨4096, 10⟩ 0x11000 .byte ∧
      ReadAccepted ⟨4096, 10⟩ 0x3FFFC .word ∧ ¬ReadAccepted ⟨4096, 10⟩ 0x40000 .word ∧
      WriteAccepted ⟨4096, 10⟩ 0x0000C .word ∧ ¬WriteAccepted ⟨4096, 10⟩ 0x00010 .word ∧
      ¬WriteAccepted ⟨4096, 10⟩ 0x80000 .word :=
  ⟨by decide, by decide, by decide, by decide, by decide, by decide, by decide, by decide, by decide⟩

theorem witness_RegisterReads : (sched State.reset [.host (.read 0x00024 .word)]).turns =
    [.host (.read 0x00024 .word)] := rfl

/-- The first cell, the last, the first index past IBUF, a written cell and an unwritten one. -/
theorem witness_IbufWindow :
    (0x10000 : Addr).toNat - 0x10000 < State.reset.params.ibufSize ∧
      (0x10FFF : Addr).toNat - 0x10000 < State.reset.params.ibufSize ∧
      State.reset.params.ibufSize ≤ (0x11000 : Addr).toNat - 0x10000 ∧ (0x11000 : Addr).toNat ≤ 0x1FFFF ∧
      Memory.read State.reset.ibuf 0 = none ∧ Memory.read (loaded 10 .little [7]).ibuf 0 = some 7 ∧
      State.reset.status.busy = false ∧ (pending (.nop 0) State.reset).status.busy = true := by decide

/-- The first and last SAMP addresses, idle and busy, with a sample and without, and a misaligned address. -/
theorem witness_SampWindowReads :
    (0x3FFFD : Addr).toNat ≤ 0x3FFFF ∧ (0x3FFFD : Addr).toNat % 4 ≠ 0 ∧ (0x20000 : Addr).toNat = 0x20000 ∧ (0x3FFFC : Addr).toNat ≤ 0x3FFFF ∧ (0x3FFFC : Addr).toNat % 4 = 0 ∧
      0 < (ran (.decFull 0) (scanned 10 .little v1)).resNsamp.toNat ∧ State.reset.resNsamp.toNat = 0 ∧
      State.reset.status.busy = false ∧ (pending (.nop 0) State.reset).status.busy = true := by decide

/-- The first and last CAND addresses, idle and busy, with an entry and without, and a misaligned address. -/
theorem witness_CandWindowReads :
    (0xFFFFF : Addr).toNat % 4 ≠ 0 ∧
    0x80000 ≤ (0x80000 : Addr).toNat ∧ 0x80000 ≤ (0xFFFFC : Addr).toNat ∧ (0xFFFFC : Addr).toNat % 4 = 0 ∧
      0 < (scanned 10 .little [1]).candCount.toNat ∧ State.reset.candCount.toNat = 0 ∧
      State.reset.status.busy = false ∧ (pending (.nop 0) State.reset).status.busy = true := by decide

theorem witness_WritesWhileBusyAreIgnored : (pending (.nop 0) State.reset).status.busy = true ∧
    InputWriteAccepted ⟨4096, 10⟩ 0x00008 .word ∧ InputWriteAccepted ⟨4096, 10⟩ 0x0000C .word ∧
      InputWriteAccepted ⟨4096, 10⟩ 0x10FFF .byte := by decide

theorem witness_CfgWriteReadsBack : State.reset.status.busy = false ∧
    (sched State.reset [.host (.write 0x00008 .word 0x1FF), .host (.read 0x00008 .word)]).turns =
      [.host (.write 0x00008 .word 0x1FF), .host (.read 0x00008 .word)] := by decide

theorem witness_InLenWriteClamps : State.reset.params.Valid ∧ State.reset.status.busy = false := by decide

theorem witness_InputWriteInvalidatesTable : (scanned 10 .little [0x3A]).status.busy = false ∧
    InputWriteAccepted (scanned 10 .little [0x3A]).params 0x00008 .word ∧
      InputWriteAccepted (scanned 10 .little [0x3A]).params 0x10000 .byte ∧
      ¬InputWriteAccepted (scanned 10 .little [0x3A]).params 0x11000 .byte := by decide

theorem witness_DecodeAfterInputWriteIsBadIndex : (scanned 10 .little t9).status.busy = false ∧
    InputWriteAccepted (scanned 10 .little t9).params 0x10003 .byte ∧
      (sched (scanned 10 .little t9) [.host (.write 0x10003 .byte 1),
        .host (.write 0x00000 .word (encode (.decTs 0))), .engine]).turns =
      [.host (.write 0x10003 .byte 1), .host (.write 0x00000 .word (encode (.decTs 0))), .engine] := by decide

theorem witness_StatusWriteClearsStickyBits : (sched State.reset [.host (.write 0x00004 .word 0x30000)]).turns =
    [.host (.write 0x00004 .word 0x30000)] := rfl

/-- Both sticky bits, set and then cleared by the HOST. -/
theorem witness_StickyBitsStayUntilCleared :
    (after (step (sched { State.reset with status := ⟨false, false, .ok, false, false, true, true⟩ }
      [.host (.write 0x00004 .word 0x30000)]))).map (fun t => (t.status.busyErr, t.status.accErr)) =
    some (false, false) := by decide

theorem witness_ParamRegister : State.reset.params.Valid ∧
    (sched State.reset [.host (.read 0x00010 .word)]).turns = [.host (.read 0x00010 .word)] ∧
      (sched State.reset [.host (.write 0x00010 .word 1)]).turns = [.host (.write 0x00010 .word 1)] := by decide

theorem witness_ResetStepGivesResetValues : (sched (pending (.scan 0) State.reset) [.reset]).turns = [.reset] := rfl

theorem witness_OnlyHostWritesIbuf :
    (after (step (sched State.reset [.host (.write 0x10FFF .byte 9)]))).map (fun t => Memory.read t.ibuf 4095) =
      some (some 9) ∧ Memory.read State.reset.ibuf 4095 = none := by decide

theorem witness_ResultsChangeOnlyByDecode :
    (∃ t, step (pending (.decTs 0) (scanned 10 .little t9)) = .next t) ∧
      (after (step (pending (.decTs 0) (scanned 10 .little t9)))).map (fun t => t.resTs) = some 0x12345678 ∧
      (scanned 10 .little t9).resTs = 0 := ⟨⟨_, rfl⟩, by decide, by decide⟩

/-- SCAN fills the table, and an input write empties it. -/
theorem witness_TableChangesOnlyByScanOrInvalidation :
    ((after (step (pending (.scan 0) (loaded 10 .little [0x3A])))).map (fun t => t.candCount) = some 2 ∧
      (loaded 10 .little [0x3A]).candCount = 0) ∧
    (after (step (sched (scanned 10 .little [0x3A]) [.host (.write 0x10000 .byte 1)]))).map (fun t => t.candCount) =
      some 0 ∧ (scanned 10 .little [0x3A]).candCount = 2 := by decide

/-- CFG and IN_LEN written while idle. -/
theorem witness_ConfigurationChangesOnlyByIdleWrite :
    (after (step (sched State.reset [.host (.write 0x00008 .word 0x100)]))).map (fun t => t.cfg) = some ⟨0, .big⟩ ∧
      State.reset.cfg = ⟨0x3A, .little⟩ ∧
      (after (step (sched State.reset [.host (.write 0x0000C .word 4096)]))).map (fun t => t.inLen) = some 4096 ∧
      State.reset.inLen = 0 := by decide

theorem witness_AcceptedReadHasNoSideEffect : ReadAccepted State.reset.params (0x10000 : Addr).toNat .byte ∧
    (sched State.reset [.host (.read 0x10000 .byte)]).turns = [.host (.read 0x10000 .byte)] := by decide

end Sys2Proof.Tests
end

section
/-! Proofs of the statements about the registers of 10_state.md: the write-1-to-clear of STATUS (R37) and the constant
PARAM (R38), with the rules about register accesses and refused writes they are read off from. -/

namespace Sys2Proof.Machine

/-! ### Register accesses and refused writes -/

/-- A word access at a register's address reaches that register (20_memory.md R62). -/
theorem locate_word_of_regAt {p : Params} {a : Addr} {r : Reg} (h : regAt a.toNat = some r) :
    locate p a .word = some (.reg r) := by
  have hlow : a.toNat ≤ 0x27 := ((regAt_isSome a.toNat).mp (by rw [h]; rfl)).1
  have hregion : a.toNat < 0x28 := by omega
  simp only [locate, wordLoc, if_pos hregion, h, Option.map_some]

/-- A transaction that writes where the address map accepts no write is refused (20_memory.md R68, R70). -/
theorem transact_write_refused {s : State} {a : Addr} {sz : Size} (v : Word) (h : ¬ WriteAccepted s.params a.toNat sz) :
    transact (.write a sz v) s = s.refuseAccess.respond (.write .err) := by
  rcases transact_cases (.write a sz v) s with hr | ⟨_, _, _, hread, _⟩ | ⟨_, _, _, l, hwrite, hl, hw, _⟩
  · exact hr
  · cases hread
  · cases hwrite
    exact absurd ((locate_writable _ _ _).mp ⟨l, hl, hw⟩) h

/-- A turn that writes where the address map accepts no write (20_memory.md R68, R70). -/
theorem step_write_refused {s : State} {rest : List Turn} {a : Addr} {sz : Size} {v : Word}
    (ht : s.turns = .host (.write a sz v) :: rest) (h : ¬ WriteAccepted s.params a.toNat sz) :
    step s = .next { s with
      turns := rest, log := .write .err :: s.log, status := { s.status with accErr := true } } := by
  have hrefused := transact_write_refused (s := { s with turns := rest }) v h
  simp only [step, ht, hrefused]
  rfl

/-! ### STATUS (10_state.md R37) -/

/-- STATUS takes its write at any BUSY (20_memory.md R71). -/
theorem writeLoc_status (v : Word) (s : State) :
    writeLoc (.reg .status) v s = { s with status := s.status.clearSticky v } := if_pos rfl

/-- The write-1-to-clear as R37 words it: one condition for each sticky bit. -/
theorem Status.clearSticky_eq_ite (t : Status) (v : Word) : t.clearSticky v = { t with
    busyErr := if v.getLsbD 16 then false else t.busyErr
    accErr := if v.getLsbD 17 then false else t.accErr } := by
  unfold Status.clearSticky
  cases v.getLsbD 16 <;> cases v.getLsbD 17 <;> simp

/-! ### The fields of PARAM (10_state.md R38) -/

/-- `PARAM[15:0]`. -/
theorem Params.word_ibufSize (p : Params) : (Params.word p).extractLsb' 0 16 = BitVec.ofNat 16 p.ibufSize :=
  BitVec.extractLsb'_append_eq_right

/-- `PARAM[23:16]`. -/
theorem Params.word_payloadOffset (p : Params) :
    (Params.word p).extractLsb' 16 8 = BitVec.ofNat 8 p.payloadOffset :=
  (BitVec.extractLsb'_append_eq_of_le (Nat.le_refl 16)).trans BitVec.extractLsb'_append_eq_right

/-- `PARAM[31:24]`. -/
theorem Params.word_expectedSamples (p : Params) :
    (Params.word p).extractLsb' 24 8 = BitVec.ofNat 8 Config.expectedSamples :=
  (BitVec.extractLsb'_append_eq_of_le (by decide : 16 ≤ 24)).trans BitVec.extractLsb'_append_eq_left

/-- At valid parameters no field of PARAM wraps. -/
theorem Params.word_toNat_of_valid {p : Params} (h : p.Valid) :
    ((Params.word p).extractLsb' 0 16).toNat = p.ibufSize ∧
      ((Params.word p).extractLsb' 16 8).toNat = p.payloadOffset ∧ ((Params.word p).extractLsb' 24 8).toNat = 7 := by
  obtain ⟨_, hsize, _, hoffset⟩ := h
  rw [Params.word_ibufSize, Params.word_payloadOffset, Params.word_expectedSamples]
  exact ⟨Nat.mod_eq_of_lt (by omega), Nat.mod_eq_of_lt (by omega), rfl⟩

/-! ### The statements -/

/-- Settles O37: STATUS is writable at any BUSY, and its write is the write-1-to-clear. -/
theorem statusWriteClearsStickyBits : Obligations.StatusWriteClearsStickyBits := by
  intro s rest v ht
  have hl : locate s.params 0x00004 .word = some (.reg .status) := locate_word_of_regAt rfl
  rw [step_write ht hl rfl, writeLoc_status, Status.clearSticky_eq_ite]
  rfl

/-- Settles O40: the value read is the PARAM word, whose fields fit at valid parameters, and the address map accepts no
write at PARAM's address. -/
theorem paramRegister : Obligations.ParamRegister := by
  intro s rest hvalid
  constructor
  · intro ht
    have hl : locate s.params 0x00010 .word = some (.reg .param) := locate_word_of_regAt rfl
    exact ⟨Params.word s.params, step_read_exact ht hl rfl, Params.word_toNat_of_valid hvalid⟩
  · intro v ht
    have hrefused : ¬ WriteAccepted s.params (0x00010 : Addr).toNat .word := by simp
    exact step_write_refused ht hrefused

end Sys2Proof.Machine
end

section
/-! Proofs of the statements about HOST access (20_memory.md R62-R72): which accesses are refused and what a refusal does,
the registers and the three windows as a read sees them, and writes while BUSY = 1. -/

namespace Sys2Proof.Machine

/-! ### Read after write -/

/-- A write is an update: the written cell holds the byte, every other cell what it held (R64). -/
theorem Memory.read_write (m : Memory) (a j : Nat) (v : Byte) :
    Memory.read (Memory.write m a v) j = if j = a then some v else Memory.read m j := by
  induction m with
  | nil => rfl
  | cons hd tl ih =>
    obtain ⟨k, b⟩ := hd
    unfold Memory.write
    split
    · rfl
    · split
      · next hak => subst hak; simp only [Memory.read_cons]; split <;> rfl
      · next hak =>
        rw [Memory.read_cons, Memory.read_cons, ih]
        by_cases hja : j = a <;> simp [hja, hak]

/-! ### One turn: a refused read, an accepted write -/

/-- A transaction that reads where the address map accepts no read is refused (R68). -/
theorem transact_read_refused {s : State} {a : Addr} {sz : Size} (h : ¬ ReadAccepted s.params a.toNat sz) :
    transact (.read a sz) s = s.refuseAccess.respond (.read .err 0) := by
  rcases transact_cases (.read a sz) s with hr | ⟨_, _, l, hread, hl, _⟩ | ⟨_, _, _, _, hwrite, _⟩
  · exact hr
  · cases hread
    exact absurd ((locate_isSome _ _ _).mp (by rw [hl]; rfl)) h
  · cases hwrite

/-- A turn that reads where the address map accepts no read (R68). -/
theorem step_read_refused {s : State} {rest : List Turn} {a : Addr} {sz : Size}
    (ht : s.turns = .host (.read a sz) :: rest) (h : ¬ ReadAccepted s.params a.toNat sz) :
    step s = .next { s with
      turns := rest, log := .read .err 0 :: s.log, status := { s.status with accErr := true } } := by
  have hrefused := transact_read_refused (s := { s with turns := rest }) h
  simp only [step, ht, hrefused]
  rfl

/-- Issue answers nothing to the HOST: the response is the transaction's. -/
@[simp] theorem issue_log (v : Word) (s : State) : (issue v s).log = s.log := by
  unfold issue
  split <;> rfl

/-- An accepted write adds no response of its own to what the HOST has been told. -/
theorem writeLoc_log {l : Loc} (hw : l.writable = true) (v : Word) (s : State) : (writeLoc l v s).log = s.log := by
  rcases writeLoc_cases hw v s with ⟨_, h⟩ | ⟨_, h⟩ | ⟨_, ⟨_, h⟩ | ⟨_, h⟩ | ⟨_, h⟩ | ⟨_, _, h⟩⟩ <;> rw [h]
  case inr.inr.inl => exact issue_log v s
  all_goals rfl

/-- A turn that writes a location while busy, STATUS apart (R71). -/
theorem step_write_busy {s : State} {rest : List Turn} {a : Addr} {sz : Size} {l : Loc} {v : Word}
    (ht : s.turns = .host (.write a sz v) :: rest) (hl : locate s.params a sz = some l) (hw : l.writable = true)
    (hs : l ≠ .reg .status) (hb : s.status.busy = true) :
    step s = .next { s with
      turns := rest, log := .write .ok :: s.log, status := { s.status with busyErr := true } } := by
  rw [step_write ht hl hw, writeLoc_busy hs hb]
  rfl

/-! ### The windows of the address map -/

/-- A byte of IBUF (R64). -/
theorem locate_ibuf_byte {p : Params} {a : Addr} (hlo : 0x10000 ≤ a.toNat) (hhi : a.toNat ≤ 0x1FFFF)
    (hi : a.toNat - 0x10000 < p.ibufSize) : locate p a .byte = some (.ibuf (a.toNat - 0x10000)) :=
  if_pos ⟨hlo, hhi, hi⟩

/-- An aligned word of the SAMP window (R65). -/
theorem locate_samp_word {p : Params} {a : Addr} (hlo : 0x20000 ≤ a.toNat) (hhi : a.toNat ≤ 0x3FFFF)
    (h4 : a.toNat % 4 = 0) : locate p a .word = some (.samp ((a.toNat - 0x20000) / 4)) := by
  have hreg : ¬ a.toNat < 0x28 := by omega
  exact (if_neg hreg).trans (if_pos ⟨hlo, hhi, h4⟩)

/-- An aligned word of the CAND window: START at offset 0 of its entry, LEN at offset 4 (R66). -/
theorem locate_cand_word {p : Params} {a : Addr} (hlo : 0x80000 ≤ a.toNat) (h4 : a.toNat % 4 = 0) :
    locate p a .word = some (if (a.toNat - 0x80000) % 8 = 0 then .candStart ((a.toNat - 0x80000) / 8)
      else .candLen ((a.toNat - 0x80000) / 8)) := by
  have hhi : a.toNat ≤ 0xFFFFF := Nat.le_of_lt_succ a.isLt
  have hreg : ¬ a.toNat < 0x28 := by omega
  have hsamp : ¬ (0x20000 ≤ a.toNat ∧ a.toNat ≤ 0x3FFFF ∧ a.toNat % 4 = 0) := by omega
  have hcand : locate p a .word = if (a.toNat - 0x80000) % 8 = 0 then some (.candStart ((a.toNat - 0x80000) / 8))
      else some (.candLen ((a.toNat - 0x80000) / 8)) :=
    (if_neg hreg).trans ((if_neg hsamp).trans (if_pos ⟨hlo, hhi, h4⟩))
  rw [hcand, apply_ite some]

/-- The IBUF window takes no word access and no index past IBUF_SIZE (R64). -/
theorem ibufWindow_refuses {p : Params} {a : Nat} {sz : Size} (hlo : 0x10000 ≤ a) (hhi : a ≤ 0x1FFFF)
    (h : sz = .word ∨ p.ibufSize ≤ a - 0x10000) : ¬ ReadAccepted p a sz ∧ ¬ WriteAccepted p a sz := by
  cases sz <;> simp at h ⊢ <;> omega

/-- Past IBUF only aligned words are read (R65-R67). -/
theorem resultWindows_refuse_read {p : Params} {a : Nat} {sz : Size} (hlo : 0x20000 ≤ a)
    (h : sz = .byte ∨ a % 4 ≠ 0) : ¬ ReadAccepted p a sz := by
  cases sz <;> simp at h ⊢ <;> omega

/-- Past IBUF nothing is written (R65-R67). -/
theorem resultWindows_refuse_write {p : Params} {a : Nat} {sz : Size} (hlo : 0x20000 ≤ a) : ¬ WriteAccepted p a sz := by
  cases sz <;> simp <;> omega

/-- The refusals that the SAMP and the CAND window share, turn by turn (R65, R66, R68). -/
theorem step_resultWindows_refused {s : State} {rest : List Turn} {a : Addr} (hlo : 0x20000 ≤ a.toNat) (sz : Size)
    (v : Word) :
    (s.turns = .host (.read a sz) :: rest → sz = .byte ∨ a.toNat % 4 ≠ 0 →
      step s = .next { s with
        turns := rest, log := .read .err 0 :: s.log, status := { s.status with accErr := true } }) ∧
    (s.turns = .host (.write a sz v) :: rest →
      step s = .next { s with
        turns := rest, log := .write .err :: s.log, status := { s.status with accErr := true } }) :=
  ⟨fun ht h => step_read_refused ht (resultWindows_refuse_read hlo h),
    fun ht => step_write_refused ht (resultWindows_refuse_write hlo)⟩

/-- A turn that reads a result while busy: any word (R72). -/
theorem step_read_result_busy {s : State} {rest : List Turn} {a : Addr} {sz : Size} {l : Loc} {v : Word}
    (ht : s.turns = .host (.read a sz) :: rest) (hl : locate s.params a sz = some l) (h : readData s l = s.result v)
    (hb : s.status.busy = true) :
    step s = .next { s with
      turns := rest, draws := s.draws + 1, log := .read .ok (Config.drawWord s.draws) :: s.log } :=
  (step_read_result ht hl h).trans (if_pos hb)

/-- A turn that reads a result while idle: its word (R72). -/
theorem step_read_result_idle {s : State} {rest : List Turn} {a : Addr} {sz : Size} {l : Loc} {v : Word}
    (ht : s.turns = .host (.read a sz) :: rest) (hl : locate s.params a sz = some l) (h : readData s l = s.result v)
    (hb : s.status.busy = false) :
    step s = .next { s with turns := rest, log := .read .ok v :: s.log } :=
  (step_read_result ht hl h).trans (if_neg (ne_true_of_eq_false hb))

/-- Both words of an entry of the CAND window are results: a field of entry `i` inside the table, else 0 (R66). -/
theorem readData_cand (s : State) (i w : Nat) : readData s (if w = 0 then .candStart i else .candLen i) =
    s.result (if i < s.candCount.toNat then
      (if w = 0 then (s.candAt i).start else (s.candAt i).len).setWidth 32 else 0) := by
  split <;> rfl

/-! ### The statements -/

/-- Settles O27: what the address map accepts has a location, what it does not is refused. -/
theorem refusedAccessSetsAccErrOnly : Obligations.RefusedAccessSetsAccErrOnly := by
  intro s rest a sz v
  refine ⟨fun ht => ⟨step_read_refused ht, fun h => ?_⟩, fun ht => ⟨step_write_refused ht, fun h => ?_⟩⟩
  · obtain ⟨l, hl⟩ := Option.isSome_iff_exists.mp ((locate_isSome _ _ _).mpr h)
    exact ⟨_, _, step_read ht hl, rfl⟩
  · obtain ⟨l, hl, hw⟩ := (locate_writable _ _ _).mpr h
    exact ⟨_, step_write ht hl hw, by rw [State.respond_log, writeLoc_log hw]⟩

/-- Settles O28: each address is its register's, and `readData` gives the register's word, exact or as a result. -/
theorem registerReads : Obligations.RegisterReads := by
  intro s rest a ht gives draws busy
  have reaches (r : Reg) {n : Addr} (ha : a = n) (hr : regAt n.toNat = some r) :
      locate s.params a .word = some (.reg r) := locate_word_of_regAt (ha ▸ hr)
  exact ⟨
    fun ha => step_read_exact ht (reaches .cmd ha rfl) rfl,
    fun ha => step_read_exact ht (reaches .status ha rfl) rfl,
    fun ha => step_read_exact ht (reaches .cfg ha rfl) rfl,
    fun ha => step_read_exact ht (reaches .inLen ha rfl) rfl,
    fun ha => step_read_exact ht (reaches .param ha rfl) rfl,
    fun ha => step_read_result ht (reaches .candCount ha rfl) rfl,
    fun ha => step_read_result ht (reaches .resIdx ha rfl) rfl,
    fun ha => step_read_result ht (reaches .resFlen ha rfl) rfl,
    fun ha => step_read_result ht (reaches .resTs ha rfl) rfl,
    fun ha => step_read_result ht (reaches .resNsamp ha rfl) rfl⟩

/-- Settles O29: an accepted access reaches cell `a - 0x10000`, and every other access is refused. -/
theorem ibufWindow : Obligations.IbufWindow := by
  intro s rest a v hlo hhi
  refine ⟨fun hi => ?_, fun sz h => ?_⟩
  · have hl : locate s.params a .byte = some (.ibuf (a.toNat - 0x10000)) := locate_ibuf_byte hlo hhi hi
    refine ⟨fun ht => ⟨fun b hb => ?_, fun hb => ?_⟩, fun ht => ⟨fun hidle => ?_, fun hbusy => ?_⟩⟩
    · exact step_read_exact ht hl (by simp only [readData, hb])
    · have hdata : readData s (.ibuf (a.toNat - 0x10000)) = .anyByte := by simp only [readData, hb]
      rw [step_read ht hl, hdata]
      rfl
    · refine ⟨Memory.write s.ibuf (a.toNat - 0x10000) (v.extractLsb' 0 8), ?_, ?_, fun j hj => ?_⟩
      · rw [step_write ht hl rfl, writeLoc_idle (by simp) hidle]
        rfl
      · rw [Memory.read_write, if_pos rfl]
      · rw [Memory.read_write, if_neg hj]
    · exact step_write_busy ht hl rfl (by simp) hbusy
  · obtain ⟨hread, hwrite⟩ := ibufWindow_refuses hlo hhi h
    exact ⟨fun ht => step_read_refused ht hread, fun ht => step_write_refused ht hwrite⟩

/-- Settles O30: an aligned word of the window is sample `k`, a result; sign extension keeps the signed reading. -/
theorem sampWindowReads : Obligations.SampWindowReads := by
  intro s rest a hlo hhi
  refine ⟨fun ht h4 => ?_, step_resultWindows_refused hlo⟩
  have hl := locate_samp_word (p := s.params) hlo hhi h4
  refine ⟨step_read_result_busy ht hl rfl, fun hidle => ⟨_, step_read_result_idle ht hl rfl hidle, ?_⟩⟩
  rw [apply_ite BitVec.toInt, BitVec.toInt_signExtend_of_le (by decide)]
  rfl

/-- Settles O31: an aligned word of the window is START or LEN of entry `i`, a result; zero extension keeps its value. -/
theorem candWindowReads : Obligations.CandWindowReads := by
  intro s rest a hlo
  refine ⟨fun ht h4 => ?_, step_resultWindows_refused (by omega)⟩
  have hl := locate_cand_word (p := s.params) hlo h4
  have hdata := readData_cand s ((a.toNat - 0x80000) / 8) ((a.toNat - 0x80000) % 8)
  refine ⟨step_read_result_busy ht hl hdata, fun hidle => ⟨_, step_read_result_idle ht hl hdata hidle, ?_⟩⟩
  rw [apply_ite BitVec.toNat, BitVec.toNat_setWidth_of_le (by decide), apply_ite BitVec.toNat]
  rfl

/-- Settles O32: CMD and the inputs are writable locations other than STATUS. -/
theorem writesWhileBusyAreIgnored : Obligations.WritesWhileBusyAreIgnored := by
  intro s rest a sz v ht hbusy h
  rcases h with ⟨rfl, rfl⟩ | h
  · exact step_write_busy ht (locate_word_of_regAt (r := .cmd) rfl) rfl (by simp) hbusy
  · obtain ⟨l, hl, hw, hinput⟩ := inputWrite_loc h
    have hs : l ≠ .reg .status := by rcases hinput with rfl | rfl | ⟨i, rfl⟩ <;> simp
    exact step_write_busy ht hl hw hs hbusy

end Sys2Proof.Machine
end

section
/-! Proofs of the statements about the encoding of a command word (30_encoding.md R100-R105): the fields of a command's
word, what the decoder reads from them, and which words are legal. -/

namespace Sys2Proof

/-! ### The fields of a command's word (30_encoding.md R100) -/

/-- IDX of a command's word is the command's index. -/
@[simp] theorem idxField_encode (i : Instr) : idxField (encode i) = i.index :=
  BitVec.extractLsb'_append_eq_left

/-- RSV of a command's word is 0. -/
@[simp] theorem rsvField_encode (i : Instr) : rsvField (encode i) = 0#12 :=
  (BitVec.extractLsb'_append_eq_of_add_le (by decide)).trans BitVec.extractLsb'_append_eq_left

/-- OP of a command's word is the command's opcode. -/
@[simp] theorem opField_encode (i : Instr) : opField (encode i) = i.opcode :=
  (BitVec.extractLsb'_append_eq_of_add_le (by decide)).trans BitVec.extractLsb'_append_eq_right

/-- R100's pattern string as a sum of fields: the index in the upper half, the opcode in the lowest bits. -/
theorem encode_eq_shiftLeft_or (i : Instr) :
    encode i = (i.index.setWidth 32 <<< 16) ||| i.opcode.setWidth 32 := by
  have hlow : (0#12 ++ i.opcode).setWidth 32 = i.opcode.setWidth 32 :=
    BitVec.eq_of_toNat_eq (by rw [BitVec.toNat_setWidth, BitVec.toNat_append]; simp)
  rw [encode, BitVec.append_def, BitVec.shiftLeftZeroExtend_eq, BitVec.setWidth'_eq, hlow]

/-! ### The decoder (30_encoding.md R102) -/

/-- The decoder gives back the command whose word it reads. -/
@[simp] theorem decode_encode (i : Instr) : decode (encode i) = .ok i := by
  simp only [decode, rsvField_encode, opField_encode, idxField_encode, if_true]
  cases i <;> rfl

/-- R102: a word decodes exactly when OP is in the opcode map and RSV = 0. -/
theorem exists_decode_eq_ok_iff (v : Word) :
    (∃ i, decode v = .ok i) ↔ (opField v).toNat ≤ 4 ∧ rsvField v = 0#12 := by
  unfold decode
  by_cases hrsv : rsvField v = 0#12
  · rw [if_pos hrsv]
    generalize (opField v).toNat = op
    match op with
    | 0 | 1 | 2 | 3 | 4 => simp [hrsv]
    | op + 5 => simp
  · simp [hrsv]

/-- Settles O3: the decoder's branches decide legality, and each full word is the encoding of its command. -/
theorem legalWordsAreTheOpcodeMap : Obligations.LegalWordsAreTheOpcodeMap := by
  refine ⟨exists_decode_eq_ok_iff, fun idx => ?_⟩
  have decodes (i : Instr) : decode ((i.index.setWidth 32 <<< 16) ||| i.opcode.setWidth 32) = .ok i := by
    rw [← encode_eq_shiftLeft_or, decode_encode]
  exact ⟨decodes (.nop idx), decodes (.scan idx), decodes (.decTs idx), decodes (.decSamp idx), decodes (.decFull idx)⟩

end Sys2Proof
end

section
/-! Proofs of the statements about command control (40_control.md): issue of a legal word (R120), an illegal
word (R122), and NOP from issue to completion (R123). -/

namespace Sys2Proof

/-! ### The words of NOP -/

/-- The mask of the opcode table's rows covers OP. -/
theorem opField_and_mask (v : Word) : opField (v &&& 0x0000FFFF) = opField v := by
  have hmask : (0x0000FFFF : Word).extractLsb' 0 4 = BitVec.allOnes 4 := by decide
  rw [opField, BitVec.extractLsb'_and, hmask, BitVec.and_allOnes, opField]

/-- The mask of the opcode table's rows covers RSV. -/
theorem rsvField_and_mask (v : Word) : rsvField (v &&& 0x0000FFFF) = rsvField v := by
  have hmask : (0x0000FFFF : Word).extractLsb' 4 12 = BitVec.allOnes 12 := by decide
  rw [rsvField, BitVec.extractLsb'_and, hmask, BitVec.and_allOnes, rsvField]

/-- A word that matches NOP's row of the opcode table is a NOP, whatever its IDX (R123). -/
theorem decode_nop_of_match {v : Word} (h : v &&& 0x0000FFFF = 0x00000000) : decode v = .ok (.nop (idxField v)) := by
  have hop : opField v = 0#4 := by rw [← opField_and_mask, h]; rfl
  have hrsv : rsvField v = 0#12 := by rw [← rsvField_and_mask, h]; rfl
  rw [decode, if_pos hrsv, hop]
  rfl

/-- A word illegal by R103 decodes to no command. -/
theorem decode_ne_ok_of_illegal {v : Word} (h : 5 ≤ (opField v).toNat ∨ rsvField v ≠ 0#12) (i : Instr) :
    decode v ≠ .ok i := by
  intro hdecode
  obtain ⟨hop, hrsv⟩ := (exists_decode_eq_ok_iff v).mp ⟨i, hdecode⟩
  rcases h with hop5 | hrsv0
  · omega
  · exact hrsv0 hrsv

namespace Machine

/-! ### Issue -/

/-- Issue of a legal word latches its command (R120). -/
theorem issue_of_legal {v : Word} {i : Instr} (h : decode v = .ok i) (s : State) :
    issue v s = { s with status := s.status.issue, pend := some i } := by
  rw [issue, h]

/-- Issue of an illegal word completes with BAD_CMD (R122). -/
theorem issue_of_illegal {v : Word} (h : ∀ i, decode v ≠ .ok i) (s : State) :
    issue v s = { s with status := s.status.badCmd } := by
  cases hdecode : decode v with
  | ok i => exact absurd hdecode (h i)
  | error e => rw [issue, hdecode]

/-- A turn that writes CMD while idle issues the word (20_memory.md R70). -/
theorem step_write_cmd_idle {s : State} {rest : List Turn} {v : Word}
    (ht : s.turns = .host (.write 0x00000 .word v) :: rest) (hidle : s.status.busy = false) :
    step s = .next ((issue v { s with turns := rest }).respond (.write .ok)) := by
  rw [step_write ht (locate_word_of_regAt (r := .cmd) rfl) rfl, writeLoc_idle (by simp) hidle]
  rfl

/-- A turn that issues a legal word (R120). -/
theorem step_issue_legal {s : State} {rest : List Turn} {v : Word} {i : Instr}
    (ht : s.turns = .host (.write 0x00000 .word v) :: rest) (hidle : s.status.busy = false) (h : decode v = .ok i) :
    step s = .next { s with
      turns := rest, log := .write .ok :: s.log, pend := some i, status := s.status.issue } := by
  rw [step_write_cmd_idle ht hidle, issue_of_legal h]
  rfl

/-- A turn that writes CMD while busy sets BUSY_ERR (20_memory.md R71). -/
theorem step_write_cmd_busy {s : State} {rest : List Turn} {v : Word}
    (ht : s.turns = .host (.write 0x00000 .word v) :: rest) (hbusy : s.status.busy = true) :
    step s = .next { s with
      turns := rest, log := .write .ok :: s.log, status := { s.status with busyErr := true } } :=
  step_write_busy ht (locate_word_of_regAt (r := .cmd) rfl) rfl (by simp) hbusy

/-! ### Completion -/

/-- A turn of the ENGINE that runs the pending command to its end (R121). -/
theorem step_engine_of_exec_next {s t : State} {rest : List Turn} {i : Instr} (ht : s.turns = .engine :: rest)
    (hpend : s.pend = some i) (hexec : exec i { s with turns := rest } = .next t) : step s = .next t.complete := by
  have hengine : engineStep { s with turns := rest } = .next t.complete :=
    engineStep_next.mpr (.inr ⟨i, t, hpend, hexec, rfl⟩)
  simp only [step, ht, hengine]

/-- NOP sets CODE to OK (R123). -/
theorem exec_nop (idx : Half) (s : State) : exec (.nop idx) s = .next (s.raise .ok) := rfl

/-- STATUS after a command that was issued from idle and set CODE to OK alone. -/
theorem Status.complete_issue_of_idle {t : Status} (hidle : t.busy = false) :
    t.issue.complete = { t with done := true, code := .ok, odd := false, nominal := false } := by
  rw [hidle, Status.complete, Status.issue]

/-- A command issued from idle and completed on the turn after (R120, R121). -/
theorem run_issue_then_engine {s t : State} {rest : List Turn} {v : Word} {i : Instr}
    (ht : s.turns = .host (.write 0x00000 .word v) :: .engine :: rest) (hidle : s.status.busy = false)
    (hdecode : decode v = .ok i)
    (hexec : exec i { s with
      turns := rest, log := .write .ok :: s.log, pend := some i, status := s.status.issue } = .next t) :
    Host.Core.run core 2 s = .next t.complete := by
  have hengine : step { s with
      turns := .engine :: rest, log := .write .ok :: s.log, pend := some i, status := s.status.issue } =
      .next t.complete := step_engine_of_exec_next rfl rfl hexec
  rw [core_run_of_next 1 (step_issue_legal ht hidle hdecode), core_run_of_next 0 hengine, core_run_zero]

/-! ### The statements -/

/-- Settles O6: while idle the word's command is latched, while busy the write is ignored. -/
theorem issueLatchesLegalCommand : Obligations.IssueLatchesLegalCommand := by
  intro s v i rest ht hdecode
  exact ⟨fun hidle => step_issue_legal ht hidle hdecode, step_write_cmd_busy ht⟩

/-- Settles O7: the word decodes to no command, so its issue is its completion. -/
theorem illegalWordCompletesWithBadCmd : Obligations.IllegalWordCompletesWithBadCmd := by
  intro s v rest ht hidle hillegal
  rw [step_write_cmd_idle ht hidle, issue_of_illegal (decode_ne_ok_of_illegal hillegal)]
  rfl

/-- Settles O9: the words are NOPs; from idle the issue latches NOP and the ENGINE's turn completes it. -/
theorem nopOnlySetsCodeOk : Obligations.NopOnlySetsCodeOk := by
  refine ⟨exec_nop, fun v s rest hmatch => ⟨fun hidle hpend ht => ?_, fun hbusy ht => step_write_cmd_busy ht hbusy⟩⟩
  rw [run_issue_then_engine ht hidle (decode_nop_of_match hmatch) (exec_nop _ _), hpend,
    ← Status.complete_issue_of_idle hidle]
  rfl

end Machine
end Sys2Proof
end

section
/-! Proofs of the statements about the extractor (42_extractor.md): the length validator (R161), the timestamp of DEC_TS
(R162), and the samples and payload status of DEC_SAMP and DEC_FULL (R163-R165). -/

namespace Sys2Proof.Machine

/-! ### The length validator -/

/-- DEC_TS and DEC_FULL of a candidate shorter than 10 bytes end with TOO_SHORT and read no byte (R161, R166, R168). -/
theorem exec_of_tooShort {idx : Half} {s : State} {i : Instr} (hi : i = .decTs idx ∨ i = .decFull idx)
    (hidx : idx.toNat < s.candCount.toNat) (hshort : (s.candAt idx.toNat).len.toNat < 10) :
    exec i s = .next (s.putFrame idx (s.candAt idx.toNat).len).raiseTooShort := by
  rcases hi with rfl | rfl
  · exact execDecTs_next.mpr (.inr (.inl ⟨hidx, hshort, rfl⟩))
  · exact execDecFull_next.mpr (.inr (.inl ⟨hidx, hshort, rfl⟩))

/-- DEC_TS and DEC_FULL of a candidate of at least 10 bytes complete with OK alone (R161). -/
theorem code_ok_of_long {idx : Half} {s t : State} {i : Instr} (hi : i = .decTs idx ∨ i = .decFull idx)
    (hidx : idx.toNat < s.candCount.toNat) (hlong : 10 ≤ (s.candAt idx.toNat).len.toNat)
    (hexec : exec i s = .next t) : t.status.code = .ok := by
  rcases hi with rfl | rfl
  · obtain ⟨hbad, -⟩ | ⟨-, hshort, -⟩ | ⟨-, -, ts, -, rfl⟩ := execDecTs_next.mp hexec
    · omega
    · omega
    · rfl
  · obtain ⟨hbad, -⟩ | ⟨-, hshort, -⟩ | ⟨-, -, ts, vs, -, -, rfl⟩ := execDecFull_next.mp hexec
    · omega
    · omega
    · rfl

/-- DEC_SAMP completes with BAD_INDEX or OK, as its index decides (R160, R167). -/
theorem decSamp_code {idx : Half} {s t : State} (hexec : exec (.decSamp idx) s = .next t) :
    t.status.code = if s.candCount.toNat ≤ idx.toNat then .badIndex else .ok := by
  obtain ⟨hbad, rfl⟩ | ⟨hidx, vs, -, rfl⟩ := execDecSamp_next.mp hexec
  · rw [if_pos hbad]
    rfl
  · rw [if_neg (by omega)]
    rfl

/-! ### The timestamp -/

/-- Where the candidate's bytes 6 to 9 are known, so is its timestamp (R162). -/
theorem extractTs_of_read {c : Candidate} {s : State} {b0 b1 b2 b3 : Byte}
    (h0 : Memory.read s.ibuf (c.start.toNat + 6) = some b0) (h1 : Memory.read s.ibuf (c.start.toNat + 7) = some b1)
    (h2 : Memory.read s.ibuf (c.start.toNat + 8) = some b2) (h3 : Memory.read s.ibuf (c.start.toNat + 9) = some b3) :
    extractTs c s = .ok (quadOf s.cfg.bo b0 b1 b2 b3) :=
  extractTs_ok_iff.mpr ⟨b0, b1, b2, b3, h0, h1, h2, h3, rfl⟩

/-! ### What sample extraction reads and writes -/

/-- The model's PLEN of a candidate is the payload length of the statements (R163). -/
theorem payloadLen_candAt (s : State) (idx : Half) :
    payloadLen s.params (s.candAt idx.toNat).len = payloadOf s idx := rfl

/-- The payload's groups can be extracted where they have been written (R164). -/
theorem extractSamples_of_written {idx : Half} {s : State}
    (h : Written s.ibuf ((s.candAt idx.toNat).start.toNat + s.params.payloadOffset) (2 * (payloadOf s idx / 2))) :
    ∃ vs, extractSamples (s.candAt idx.toNat) s = .ok vs :=
  readSamples_of_written h

/-- The samples extracted: one for each whole group of the payload, the group's two bytes in the byte order of CFG.BO
(R164). -/
theorem extractSamples_ok {idx : Half} {s : State} {vs : List Half}
    (h : extractSamples (s.candAt idx.toNat) s = .ok vs) :
    vs.length = payloadOf s idx / 2 ∧ ∀ k, k < payloadOf s idx / 2 → ∃ lo hi,
      Memory.read s.ibuf ((s.candAt idx.toNat).start.toNat + s.params.payloadOffset + 2 * k) = some lo ∧
      Memory.read s.ibuf ((s.candAt idx.toNat).start.toNat + s.params.payloadOffset + 2 * k + 1) = some hi ∧
      vs[k]? = some (pairOf s.cfg.bo lo hi) := by
  simpa only [assemble_pair, payloadLen_candAt] using readSamples_ok h

/-- A payload fits in RES_NSAMP: it is no longer than its candidate (R163). -/
theorem payloadOf_lt (s : State) (idx : Half) : payloadOf s idx < 2 ^ 16 := by
  have hlen := (s.candAt idx.toNat).len.isLt
  unfold payloadOf
  split <;> omega

/-- A register among the samples written holds its sample (R164). -/
theorem State.putSamples_resSamp_of_lt (s : State) {vs : List Half} {k : Nat} (h : k < vs.length) :
    (s.putSamples vs).resSamp[k]? = vs[k]? :=
  List.getElem?_append_left h

/-- A register past the samples written is kept (R164). -/
theorem State.putSamples_resSamp_of_le (s : State) {vs : List Half} {k : Nat} (h : vs.length ≤ k) :
    (s.putSamples vs).resSamp[k]? = s.resSamp[k]? := by
  rw [State.putSamples_resSamp, List.getElem?_append_right h, List.getElem?_drop, Nat.add_sub_cancel' h]

/-- A written register reads as what it holds (10_state.md R44). -/
theorem State.sampleAt_of_getElem? {s : State} {k : Nat} {v : Half} (h : s.resSamp[k]? = some v) :
    s.sampleAt k = v := by
  rw [State.sampleAt, h]

/-! ### The end of a sample decode -/

/-- The state in which DEC_SAMP (with timestamp 0) and DEC_FULL end with OK, having read the samples `vs` of candidate
`idx` (R167, R168). -/
def State.decoded (s : State) (idx : Half) (ts : Word) (vs : List Half) : State :=
  ((((s.putFrame idx (s.candAt idx.toNat).len).putTs ts).putSamples vs).payloadStatus (payloadOf s idx)).raise .ok

/-- DEC_SAMP completes where its samples can be read, whatever the candidate's length (R167). -/
theorem exec_decSamp_of_samples {idx : Half} {s : State} {vs : List Half} (hidx : idx.toNat < s.candCount.toNat)
    (hvs : extractSamples (s.candAt idx.toNat) s = .ok vs) : exec (.decSamp idx) s = .next (s.decoded idx 0 vs) :=
  execDecSamp_next.mpr (.inr ⟨hidx, vs, hvs, rfl⟩)

/-- DEC_FULL of a candidate of at least 10 bytes completes where its timestamp and samples can be read (R168). -/
theorem exec_decFull_of_fields {idx : Half} {s : State} {ts : Word} {vs : List Half}
    (hidx : idx.toNat < s.candCount.toNat) (hlong : 10 ≤ (s.candAt idx.toNat).len.toNat)
    (hts : extractTs (s.candAt idx.toNat) s = .ok ts) (hvs : extractSamples (s.candAt idx.toNat) s = .ok vs) :
    exec (.decFull idx) s = .next (s.decoded idx ts vs) :=
  execDecFull_next.mpr (.inr (.inr ⟨hidx, hlong, ts, vs, hts, hvs, rfl⟩))

/-- A sample decode leaves the samples and payload status of its candidate (R164, R165). -/
theorem samplesExtracted_decoded {idx : Half} {s : State} (ts : Word) {vs : List Half}
    (hvs : extractSamples (s.candAt idx.toNat) s = .ok vs) : SamplesExtracted s (s.decoded idx ts vs) idx := by
  obtain ⟨hlen, hgroup⟩ := extractSamples_ok hvs
  refine ⟨?count, fun k lo hi hk hlo hhi => ?sample, fun k hk => ?kept, rfl⟩
  case count =>
    have hfit := payloadOf_lt s idx
    show (BitVec.ofNat 16 vs.length).toNat = _
    rw [hlen, BitVec.toNat_ofNat, Nat.mod_eq_of_lt (by omega)]
  case sample =>
    obtain ⟨lo', hi', hlo', hhi', hsample⟩ := hgroup k hk
    obtain rfl : lo' = lo := Option.some.inj (hlo'.symm.trans hlo)
    obtain rfl : hi' = hi := Option.some.inj (hhi'.symm.trans hhi)
    exact State.sampleAt_of_getElem? ((State.putSamples_resSamp_of_lt _ (hlen ▸ hk)).trans hsample)
  case kept => exact State.putSamples_resSamp_of_le _ (hlen ▸ hk)

/-- A sample decode keeps the inputs, the table and the control state (40_control.md R126). -/
theorem decoded_frame (s : State) (idx : Half) (ts : Word) (vs : List Half) :
    SameInputs s (s.decoded idx ts vs) ∧ SameTable s (s.decoded idx ts vs) ∧ SameControl s (s.decoded idx ts vs) :=
  ⟨⟨rfl, fun _ => rfl, rfl, rfl, rfl⟩, ⟨rfl, rfl⟩, ⟨rfl, rfl, rfl, rfl, rfl, rfl, rfl, rfl⟩⟩

/-! ### The statements -/

/-- Settles O16: the length decides DEC_TS and DEC_FULL before any byte is read, and DEC_SAMP's code is its index's. -/
theorem lengthValidator : Obligations.LengthValidator := by
  intro idx s
  refine ⟨fun hidx i hi => ⟨fun hshort => exec_of_tooShort hi hidx hshort,
    fun hlong t hexec => code_ok_of_long hi hidx hlong hexec⟩, fun t hexec => ?_, fun hidx t hexec => ?_⟩
  · rw [decSamp_code hexec]
    split <;> decide
  · rw [decSamp_code hexec, if_neg (by omega)]

/-- Settles O17: bytes 6 to 9 are written, so the timestamp is extracted and DEC_TS ends with OK. -/
theorem decTsExtractsTimestamp : Obligations.DecTsExtractsTimestamp := by
  intro idx s b0 b1 b2 b3 hidx hlong h0 h1 h2 h3
  have hts := extractTs_of_read h0 h1 h2 h3
  exact execDecTs_next.mpr (.inr (.inr ⟨hidx, hlong, _, hts, rfl⟩))

/-- Settles O18: the payload's groups are written, so the samples are extracted at any length. -/
theorem decSampExtractsSamples : Obligations.DecSampExtractsSamples := by
  intro idx s hidx hwritten
  obtain ⟨vs, hvs⟩ := extractSamples_of_written hwritten
  exact ⟨s.decoded idx 0 vs, exec_decSamp_of_samples hidx hvs, rfl, rfl, rfl, samplesExtracted_decoded 0 hvs,
    decoded_frame s idx 0 vs⟩

/-- Settles O19: the timestamp and the payload's groups are written, so both are extracted. -/
theorem decFullExtractsFrame : Obligations.DecFullExtractsFrame := by
  intro idx s b0 b1 b2 b3 hidx hlong h0 h1 h2 h3 hwritten
  have hts := extractTs_of_read h0 h1 h2 h3
  obtain ⟨vs, hvs⟩ := extractSamples_of_written hwritten
  exact ⟨s.decoded idx _ vs, exec_decFull_of_fields hidx hlong hts hvs, rfl, rfl, rfl, samplesExtracted_decoded _ hvs,
    decoded_frame s idx _ vs⟩

end Sys2Proof.Machine
end

section
/-! Proof of the statement about the reset step (70_reset_and_hazards.md R230; 10_state.md R47, R48). -/

namespace Sys2Proof.Machine

/-- A reset is the next turn: it is taken at any state, with or without a command pending (20_memory.md R79). -/
theorem step_reset {s : State} {rest : List Turn} (ht : s.turns = .reset :: rest) :
    step s = .next (State.resetStep { s with turns := rest }) := by
  simp only [step, ht]

/-- The bits of STATUS after reset, put together (10_state.md R29, R47). -/
@[simp] theorem Status.reset_word : Status.reset.word = 0 := by decide

/-- Settles O41: the turn is `State.resetStep`, whose fields are the reset values. -/
theorem resetStepGivesResetValues : Obligations.ResetStepGivesResetValues := by
  intro s rest ht
  refine ⟨State.resetStep { s with turns := rest }, step_reset ht, ?_⟩
  simp

end Sys2Proof.Machine
end

section
/-! Proofs of the statements that relate the decoder and the encoder (30_encoding.md R100-R103). -/

namespace Sys2Proof

/-- A command word is its three fields, put together (30_encoding.md R100). -/
theorem word_eq_fields (v : Word) : v = idxField v ++ (rsvField v ++ opField v) := by
  have hlow : rsvField v ++ opField v = v.extractLsb' 0 16 := BitVec.extractLsb'_append_extractLsb'_eq_extractLsb' rfl
  have hall : idxField v ++ v.extractLsb' 0 16 = v.extractLsb' 0 32 :=
    BitVec.extractLsb'_append_extractLsb'_eq_extractLsb' rfl
  rw [hlow, hall, BitVec.extractLsb'_eq_self]

/-- A word that decodes has no reserved bit, and its other fields are the command's (R101, R102). -/
theorem fields_of_decode {v : Word} {i : Instr} (h : decode v = .ok i) :
    rsvField v = 0#12 ∧ opField v = i.opcode ∧ idxField v = i.index := by
  obtain ⟨hop, hrsv⟩ := (exists_decode_eq_ok_iff v).mp ⟨i, h⟩
  rw [decode, if_pos hrsv] at h
  have hopField : opField v = BitVec.ofNat 4 (opField v).toNat := by simp
  generalize (opField v).toNat = op at h hop hopField
  match op, hop with
  | 0, _ | 1, _ | 2, _ | 3, _ | 4, _ =>
    cases h
    exact ⟨hrsv, hopField, rfl⟩

/-- A word that decodes is the word of the command it decodes to. -/
theorem encode_of_decode {v : Word} {i : Instr} (h : decode v = .ok i) : encode i = v := by
  obtain ⟨hrsv, hop, hidx⟩ := fields_of_decode h
  rw [word_eq_fields v, hrsv, hop, hidx, encode]

/-- Settles O2: the encoder's word carries the command's fields, and a word is no more than its fields. -/
theorem decodeAndEncodeAgree : Obligations.DecodeAndEncodeAgree :=
  ⟨decode_encode, fun _ _ => encode_of_decode⟩

/-- Settles O1: the words are read off the opcode map, one for each command and for each case of R103. -/
theorem sampleCommandWordsDecode : Obligations.SampleCommandWordsDecode := by
  unfold Obligations.SampleCommandWordsDecode
  decide

end Sys2Proof
end

section
/-! Proofs of the statements about IBUF as a memory (10_state.md R23) and about byte order (20_memory.md R75). -/

namespace Sys2Proof.Machine

/-- Settles O52: a write is an update of one cell. -/
theorem memoryReadAfterWrite : Obligations.MemoryReadAfterWrite := fun m a v b => Memory.read_write m a b v

/-- `assembleLittle` as the sum R75 writes for byte order 0. -/
theorem assembleLittle_eq_sum (bs : List Byte) :
    assembleLittle bs = ∑ j ∈ Finset.range bs.length, (bs.getD j 0).toNat * 2 ^ (8 * j) := by
  induction bs with
  | nil => rfl
  | cons b bs ih =>
    have shifted (j : Nat) : (bs.getD j 0).toNat * 2 ^ (8 * (j + 1)) = 256 * ((bs.getD j 0).toNat * 2 ^ (8 * j)) := by
      rw [Nat.mul_succ, pow_add]
      ring
    rw [assembleLittle, ih, List.length_cons, Finset.sum_range_succ', Finset.mul_sum]
    simp only [List.getD_cons_succ, List.getD_cons_zero, shifted]
    ring

/-- Settles O25: big-endian reads the bytes from the other end, which reflects the sum. -/
theorem assembleIsTheWeightedSum : Obligations.AssembleIsTheWeightedSum := by
  refine fun bs => ⟨assembleLittle_eq_sum bs, ?_⟩
  rw [assemble, assembleLittle_eq_sum, List.length_reverse, ← Finset.sum_range_reflect]
  refine Finset.sum_congr rfl fun j hj => ?_
  have hj : j < bs.length := Finset.mem_range.mp hj
  rw [List.getD_reverse _ (by omega), Nat.sub_sub_self (by omega)]

end Sys2Proof.Machine
end

section
/-! Proofs of the statements about the commands as a whole (40_control.md R126, 42_extractor.md R160-R172): the ends of
a decode, and what follows from them about lookup, footprint, idempotence and the bytes a decode reads. -/

namespace Sys2Proof.Machine

/-- A command is NOP, SCAN or a decode of the candidate it names. -/
theorem nop_or_scan_or_decode (i : Instr) : (∃ idx, i = .nop idx) ∨ (∃ idx, i = .scan idx) ∨
    ∃ idx, i = .decTs idx ∨ i = .decSamp idx ∨ i = .decFull idx := by
  cases i <;> simp

/-! ### The ends of a decode -/

/-- The state in which DEC_TS and DEC_FULL end with TOO_SHORT on candidate `idx` (R166, R168). -/
def State.shortened (s : State) (idx : Half) : State := (s.putFrame idx (s.candAt idx.toNat).len).raiseTooShort

/-- The state in which DEC_TS ends with OK, having read the timestamp `ts` of candidate `idx` (R166). -/
def State.timestamped (s : State) (idx : Half) (ts : Word) : State :=
  ((s.putFrame idx (s.candAt idx.toNat).len).clearSamples.putTs ts).raise .ok

/-- DEC_TS and DEC_FULL of a candidate shorter than 10 bytes complete (R166, R168). -/
theorem exec_of_short {i : Instr} {idx : Half} {s : State} (hi : i = .decTs idx ∨ i = .decFull idx)
    (hidx : idx.toNat < s.candCount.toNat) (hshort : (s.candAt idx.toNat).len.toNat < 10) :
    exec i s = .next (s.shortened idx) :=
  exec_of_tooShort hi hidx hshort

/-- DEC_TS of a candidate of at least 10 bytes completes where its timestamp can be read (R166). -/
theorem exec_decTs_of_timestamp {idx : Half} {s : State} {ts : Word} (hidx : idx.toNat < s.candCount.toNat)
    (hlong : 10 ≤ (s.candAt idx.toNat).len.toNat) (hts : extractTs (s.candAt idx.toNat) s = .ok ts) :
    exec (.decTs idx) s = .next (s.timestamped idx ts) :=
  execDecTs_next.mpr (.inr (.inr ⟨hidx, hlong, ts, hts, rfl⟩))

/-- The ways a decode completes: no candidate, one too short, DEC_TS with its timestamp, or a sample decode. -/
theorem decode_ends {i : Instr} {idx : Half} {s t : State} (hi : i = .decTs idx ∨ i = .decSamp idx ∨ i = .decFull idx)
    (h : exec i s = .next t) :
    (s.candCount.toNat ≤ idx.toNat ∧ t = s.raise .badIndex) ∨
    idx.toNat < s.candCount.toNat ∧
      (((i = .decTs idx ∨ i = .decFull idx) ∧ (s.candAt idx.toNat).len.toNat < 10 ∧
        t = s.shortened idx) ∨
      (i = .decTs idx ∧ 10 ≤ (s.candAt idx.toNat).len.toNat ∧
        ∃ ts, extractTs (s.candAt idx.toNat) s = .ok ts ∧ t = s.timestamped idx ts) ∨
      ∃ ts vs, extractSamples (s.candAt idx.toNat) s = .ok vs ∧ t = s.decoded idx ts vs ∧
        (i = .decSamp idx ∧ ts = 0 ∨
          i = .decFull idx ∧ 10 ≤ (s.candAt idx.toNat).len.toNat ∧ extractTs (s.candAt idx.toNat) s = .ok ts)) := by
  rcases hi with rfl | rfl | rfl
  · obtain hbad | ⟨hidx, hshort, ht⟩ | ⟨hidx, hlong, hts⟩ := execDecTs_next.mp h
    · exact .inl hbad
    · exact .inr ⟨hidx, .inl ⟨.inl rfl, hshort, ht⟩⟩
    · exact .inr ⟨hidx, .inr (.inl ⟨rfl, hlong, hts⟩)⟩
  · obtain hbad | ⟨hidx, vs, hvs, ht⟩ := execDecSamp_next.mp h
    · exact .inl hbad
    · exact .inr ⟨hidx, .inr (.inr ⟨0, vs, hvs, ht, .inl ⟨rfl, rfl⟩⟩)⟩
  · obtain hbad | ⟨hidx, hshort, ht⟩ | ⟨hidx, hlong, ts, vs, hts, hvs, ht⟩ := execDecFull_next.mp h
    · exact .inl hbad
    · exact .inr ⟨hidx, .inl ⟨.inr rfl, hshort, ht⟩⟩
    · exact .inr ⟨hidx, .inr (.inr ⟨ts, vs, hvs, ht, .inr ⟨rfl, hlong, hts⟩⟩)⟩

/-- A decode of an index the table does not hold ends with BAD_INDEX (R160). -/
theorem exec_of_badIndex {i : Instr} {idx : Half} {s : State}
    (hi : i = .decTs idx ∨ i = .decSamp idx ∨ i = .decFull idx)
    (hidx : s.candCount.toNat ≤ idx.toNat) : exec i s = .next (s.raise .badIndex) := by
  rcases hi with rfl | rfl | rfl
  · exact execDecTs_next.mpr (.inl ⟨hidx, rfl⟩)
  · exact execDecSamp_next.mpr (.inl ⟨hidx, rfl⟩)
  · exact execDecFull_next.mpr (.inl ⟨hidx, rfl⟩)

/-- A decode keeps the inputs, the table and the control state (40_control.md R126). -/
theorem decode_frame {i : Instr} {idx : Half} {s t : State} (hi : i = .decTs idx ∨ i = .decSamp idx ∨ i = .decFull idx)
    (h : exec i s = .next t) : SameInputs s t ∧ SameTable s t ∧ SameControl s t := by
  obtain ⟨-, rfl⟩ | ⟨-, ⟨-, -, rfl⟩ | ⟨-, -, ts, -, rfl⟩ | ⟨ts, vs, -, rfl, -⟩⟩ := decode_ends hi h
  case inr.inr.inr => exact decoded_frame s idx ts vs
  all_goals simp [SameInputs, SameTable, SameControl, State.shortened, State.timestamped]

/-- DEC_TS writes no sample register and no payload status (R166). -/
theorem decTs_keeps_samples {idx : Half} {s t : State} (h : exec (.decTs idx) s = .next t) :
    t.status.odd = s.status.odd ∧ t.status.nominal = s.status.nominal ∧ t.resSamp = s.resSamp := by
  obtain ⟨-, rfl⟩ | ⟨-, -, rfl⟩ | ⟨-, -, ts, -, rfl⟩ := execDecTs_next.mp h <;> exact ⟨rfl, rfl, rfl⟩

/-! ### Running a command again -/

/-- Writing the same candidates again changes nothing. -/
theorem State.putCandidates_putCandidates (s : State) (cs : List Candidate) :
    (s.putCandidates cs).putCandidates cs = s.putCandidates cs := by
  unfold State.putCandidates
  rw [List.drop_left]

/-- The results of a TOO_SHORT, written again. -/
theorem State.shortened_shortened (s : State) (idx : Half) : (s.shortened idx).shortened idx = s.shortened idx := by
  simp only [State.shortened, State.putFrame, State.raiseTooShort, State.clearSamples, State.putTs, State.raise]
  rfl

/-- The results of DEC_TS, written again. -/
theorem State.timestamped_timestamped (s : State) (idx : Half) (ts : Word) :
    (s.timestamped idx ts).timestamped idx ts = s.timestamped idx ts := by
  simp only [State.timestamped, State.putFrame, State.clearSamples, State.putTs, State.raise]
  rfl

/-- The results of a sample decode, written again. -/
theorem State.decoded_decoded (s : State) (idx : Half) (ts : Word) (vs : List Half) :
    (s.decoded idx ts vs).decoded idx ts vs = s.decoded idx ts vs := by
  simp only [State.decoded, State.putFrame, State.putTs, State.putSamples, State.payloadStatus, State.raise,
    List.drop_left]
  rfl

/-- The candidates are decided by the table. -/
theorem candAt_of_sameTable {s t : State} (h : SameTable s t) (j : Nat) : t.candAt j = s.candAt j := by
  rw [State.candAt, State.candAt, h.2]

/-- A decode keeps the candidates and the bytes it reads, so a second run reads and writes the same
(42_extractor.md R170). -/
theorem decode_idempotent {i : Instr} {idx : Half} {s t : State}
    (hi : i = .decTs idx ∨ i = .decSamp idx ∨ i = .decFull idx) (h : exec i s = .next t) : exec i t = .next t := by
  obtain ⟨⟨hparams, -, hibuf, -, hcfg⟩, htable, -⟩ := decode_frame hi h
  have hcand := candAt_of_sameTable htable idx.toNat
  have hsameTs := extractTs_congr (t.candAt idx.toNat) hibuf hcfg
  have hsameSamples := extractSamples_congr (t.candAt idx.toNat) hibuf hcfg hparams
  have hends := decode_ends hi h
  rw [← htable.1, ← hcand, ← hsameTs, ← hsameSamples] at hends
  obtain ⟨hbad, ht⟩ | ⟨hidx, ⟨hi, hshort, ht⟩ | ⟨rfl, hlong, ts, hts, ht⟩ |
    ⟨ts, vs, hvs, ht, ⟨rfl, rfl⟩ | ⟨rfl, hlong, hts⟩⟩⟩ := hends
  · rw [exec_of_badIndex hi hbad, ht]
    rfl
  · rw [exec_of_short hi hidx hshort, ht, State.shortened_shortened]
  · rw [exec_decTs_of_timestamp hidx hlong hts, ht, State.timestamped_timestamped]
  · rw [exec_decSamp_of_samples hidx hvs, ht, State.decoded_decoded]
  · rw [exec_decFull_of_fields hidx hlong hts hvs, ht, State.decoded_decoded]

/-- SCAN keeps the capture and the delimiter, so a second run finds the same split (41_scanner.md R146). -/
theorem scan_idempotent {idx : Half} {s t : State} (h : exec (.scan idx) s = .next t) :
    exec (.scan idx) t = .next t := by
  obtain ⟨bs, hbs, rfl⟩ := (execScan_next idx).mp h
  refine (execScan_next idx).mpr ⟨bs, hbs, ?_⟩
  have hagain := State.putCandidates_putCandidates s (split s.cfg.delim bs)
  exact (congrArg (State.raise · .ok) hagain).symm

/-! ### The bytes a decode reads -/

/-- A timestamp is read from bytes 6 to 9 of its candidate (R162). -/
theorem extractTs_of_same_bytes {c : Candidate} {s : State} {m : Memory}
    (h : ∀ j, 6 ≤ j → j < 10 → Memory.read m (c.start.toNat + j) = Memory.read s.ibuf (c.start.toNat + j)) :
    extractTs c { s with ibuf := m } = extractTs c s := by
  have hread : memRead m (c.start.toNat + 6) 4 = memRead s.ibuf (c.start.toNat + 6) 4 :=
    memRead_congr fun j hj => by
      rw [Nat.add_assoc]
      exact h (6 + j) (by omega) (by omega)
  simp only [extractTs, hread]

/-- `MemRead` of a timestamp faults at the first unwritten one of bytes 6 to 9 (20_memory.md R85). -/
theorem extractTs_error_iff {c : Candidate} {s : State} {f : Fault} : extractTs c s = .error f ↔
    ∃ j, j < 4 ∧ f = .uninitRead (c.start.toNat + 6 + j) ∧ Memory.read s.ibuf (c.start.toNat + 6 + j) = none ∧
      ∀ k, k < j → Memory.read s.ibuf (c.start.toNat + 6 + k) ≠ none := by
  simp only [← Option.isSome_iff_ne_none]
  rw [← memRead_error_iff, extractTs]
  cases memRead s.ibuf (c.start.toNat + 6) 4 <;> simp

/-- DEC_TS faults only in the extraction of its timestamp (R166). -/
theorem execDecTs_fault {idx : Half} {s : State} {f : Fault} : execDecTs idx s = .fault f ↔
    idx.toNat < s.candCount.toNat ∧ 10 ≤ (s.candAt idx.toNat).len.toNat ∧
      extractTs (s.candAt idx.toNat) s = .error f := by
  rw [execDecTs_eq]
  rcases Nat.lt_or_ge idx.toNat s.candCount.toNat with hidx | hidx
  · rw [if_neg (by omega)]
    rcases Nat.lt_or_ge (s.candAt idx.toNat).len.toNat 10 with hlen | hlen
    · simp [hlen, Nat.not_le.mpr hlen]
    · rw [if_neg (by omega)]
      cases extractTs (s.candAt idx.toNat) s <;> simp [hidx, hlen]
  · simp [hidx, Nat.not_lt.mpr hidx]

/-! ### The statements -/

/-- Settles O14: no command writes what it reads. -/
theorem commandsAreIdempotent : Obligations.CommandsAreIdempotent := by
  refine ⟨fun i s t h => ?_, fun i j s => ⟨rfl, rfl⟩⟩
  rcases nop_or_scan_or_decode i with ⟨idx, rfl⟩ | ⟨idx, rfl⟩ | ⟨idx, hi⟩
  · cases h
    rfl
  · exact scan_idempotent h
  · exact decode_idempotent hi h

/-- Settles O15: each end of a decode that found its candidate writes the frame and another code. -/
theorem lookupDecidesBadIndex : Obligations.LookupDecidesBadIndex := by
  refine fun idx s i hi => ⟨exec_of_badIndex hi, fun hidx t h => ?_⟩
  obtain ⟨hbad, -⟩ | ⟨-, ⟨-, -, rfl⟩ | ⟨-, -, ts, -, rfl⟩ | ⟨ts, vs, -, rfl, -⟩⟩ := decode_ends hi h
  · omega
  · exact ⟨rfl, rfl, by simp [State.shortened]⟩
  · exact ⟨rfl, rfl, by simp [State.timestamped]⟩
  · exact ⟨rfl, rfl, by simp [State.decoded]⟩

/-- Settles O20: DEC_TS and DEC_SAMP, completing, have read the two fields DEC_FULL reads. -/
theorem fullDecodeEqualsItsParts : Obligations.FullDecodeEqualsItsParts := by
  intro idx s a b hidx ha hb
  rcases Nat.lt_or_ge (s.candAt idx.toNat).len.toNat 10 with hshort | hlong
  · refine ⟨_, exec_of_tooShort (.inr rfl) hidx hshort, fun _ => by omega, fun _ => ⟨rfl, ?_⟩⟩
    rw [decSamp_code hb, if_neg (by omega)]
  · obtain ⟨hbad, -⟩ | ⟨-, hshort, -⟩ | ⟨-, -, ts, hts, rfl⟩ := execDecTs_next.mp ha
    · omega
    · omega
    · obtain ⟨hbad, -⟩ | ⟨-, vs, hvs, rfl⟩ := execDecSamp_next.mp hb
      · omega
      · exact ⟨_, exec_decFull_of_fields hidx hlong hts hvs, fun _ => ⟨rfl, rfl, rfl, rfl⟩, fun _ => by omega⟩

/-- Settles O21: the two extractions are a decode's only reads of IBUF. -/
theorem decodeDependsOnlyOnItsFields : Obligations.DecodeDependsOnlyOnItsFields := by
  intro idx s m i hi hfield hpayload
  have hcand : ({ s with ibuf := m } : State).candAt idx.toNat = s.candAt idx.toNat := rfl
  have hts : extractTs (s.candAt idx.toNat) { s with ibuf := m } = extractTs (s.candAt idx.toNat) s :=
    extractTs_of_same_bytes hfield
  have hvs : extractSamples (s.candAt idx.toNat) { s with ibuf := m } = extractSamples (s.candAt idx.toNat) s :=
    readSamples_congr hpayload
  rcases hi with rfl | rfl | rfl
  · simp only [exec, execDecTs_eq, hcand, hts]
    split
    · rfl
    · split
      · rfl
      · split <;> rfl
  · simp only [exec, execDecSamp_eq, hcand, hvs]
    split
    · rfl
    · split <;> rfl
  · simp only [exec, execDecFull_eq, hcand, hts, hvs]
    split
    · rfl
    · split
      · rfl
      · split
        · rfl
        · split <;> rfl

/-- Settles O24: DEC_TS faults where the extraction does. -/
theorem decTsFaultsAtFirstUnwrittenCell : Obligations.DecTsFaultsAtFirstUnwrittenCell :=
  fun _ _ _ => execDecTs_fault.trans (and_congr_right' (and_congr_right' extractTs_error_iff))

/-- Settles O26: NOP and SCAN write CODE and the table alone, a decode its results. -/
theorem commandFootprint : Obligations.CommandFootprint := by
  intro i s t h
  rcases nop_or_scan_or_decode i with ⟨idx, rfl⟩ | ⟨idx, rfl⟩ | ⟨idx, hi⟩
  · cases h
    exact ⟨⟨rfl, fun _ => rfl, rfl, rfl, rfl⟩, ⟨rfl, rfl, rfl, rfl, rfl, rfl, rfl, rfl⟩, fun _ => ⟨rfl, rfl⟩,
      fun _ => ⟨rfl, rfl, rfl, rfl, rfl⟩, fun _ => ⟨rfl, rfl, rfl⟩⟩
  · obtain ⟨bs, -, rfl⟩ := (execScan_next idx).mp h
    exact ⟨⟨rfl, fun _ => rfl, rfl, rfl, rfl⟩, ⟨rfl, rfl, rfl, rfl, rfl, rfl, rfl, rfl⟩,
      fun hne => absurd rfl (hne idx), fun _ => ⟨rfl, rfl, rfl, rfl, rfl⟩, fun _ => ⟨rfl, rfl, rfl⟩⟩
  · obtain ⟨hinputs, htable, hcontrol⟩ := decode_frame hi h
    refine ⟨hinputs, hcontrol, fun _ => htable, fun ⟨_, hn⟩ => ?_, fun ⟨_, hn⟩ => ?_⟩
    · rcases hi with rfl | rfl | rfl <;> simp at hn
    · rcases hi with rfl | rfl | rfl
      · exact decTs_keeps_samples h
      · simp at hn
      · simp at hn

end Sys2Proof.Machine
end

section
/-! Proofs of the statements about SCAN (41_scanner.md): the split it leaves in the table (R140), the laws of the split
(R141-R143), and its fault (20_memory.md R85). -/

namespace Sys2Proof.Machine

/-! ### The capture -/

/-- SCAN faults only where the capture cannot be read (R140). -/
theorem exec_scan_fault {idx : Half} {s : State} {f : Fault} :
    exec (.scan idx) s = .fault f ↔ readCapture s = .error f := by
  simp only [exec, execScan]
  cases readCapture s <;> simp

/-- The capture cannot be read exactly where a cell of it has not been written; the first such cell is named
(20_memory.md R85). -/
theorem readCapture_error_iff {s : State} {f : Fault} : readCapture s = .error f ↔
    ∃ a, a < s.inLen.toNat ∧ f = .uninitRead a ∧ Memory.read s.ibuf a = none ∧
      ∀ b, b < a → Memory.read s.ibuf b ≠ none := by
  simp only [readCapture, memRead_error_iff, Nat.zero_add, Option.isSome_iff_ne_none]

/-- The cells of a capture that can be read, in address order (10_state.md R24). -/
theorem map_read_range_capture {s : State} {bs : List Byte} (hbs : readCapture s = .ok bs) :
    (List.range s.inLen.toNat).map (Memory.read s.ibuf) = bs.map some := by
  obtain ⟨hlen, hread⟩ := readCapture_ok hbs
  refine List.ext_getElem (by simp [hlen]) fun j hj _ => ?_
  have hj : j < s.inLen.toNat := by simpa using hj
  simp [hread j hj, hlen, hj]

/-- A capture fits in 16 bits. -/
theorem capture_length_le {s : State} {bs : List Byte} (hbs : readCapture s = .ok bs) : bs.length ≤ 65535 := by
  have hlen := (readCapture_ok hbs).1
  have hfit := s.inLen.isLt
  omega

/-! ### The slices of a split -/

/-- The cells of a candidate, `f` read at each. -/
def Candidate.slice (f : Nat → Option Byte) (c : Candidate) : List (Option Byte) :=
  (List.range' c.start.toNat c.len.toNat).map f

/-- A slice as the statements write it, by the candidate's own indices. -/
theorem Candidate.slice_eq_map_range (f : Nat → Option Byte) (c : Candidate) :
    c.slice f = (List.range c.len.toNat).map fun k => f (c.start.toNat + k) := by
  rw [Candidate.slice, List.range'_eq_map_range, List.map_map]
  rfl

/-- The slice of the loop's current candidate. -/
theorem Candidate.slice_between (f : Nat → Option Byte) {start stop : Nat} (h : start ≤ stop) (hstop : stop ≤ 65535) :
    (Candidate.between start stop).slice f = (List.range' start (stop - start)).map f := by
  rw [Candidate.slice, Candidate.between_start stop (by omega), Candidate.between_len start hstop]

/-- The loop cuts nothing away but the delimiters: its candidates' slices, joined with them, are the bytes from the
current start on (R143). -/
theorem splitFrom_join {d : Byte} {start a : Nat} {bs : List Byte} (h : start ≤ a) (hb : a + bs.length ≤ 65535)
    {f : Nat → Option Byte} (hf : ∀ j, j < bs.length → f (a + j) = bs[j]?) :
    List.intercalate [some d] ((splitFrom d start a bs).map (Candidate.slice f)) =
      (List.range' start (a + bs.length - start)).map f := by
  induction bs generalizing start a with
  | nil =>
    rw [splitFrom, List.map_singleton, List.intercalate_singleton, Candidate.slice_between f h hb]
    rfl
  | cons b bs ih =>
    rw [List.length_cons] at hb ⊢
    have hhead : f a = some b := hf 0 (by simp)
    have htail (j : Nat) (hj : j < bs.length) : f (a + 1 + j) = bs[j]? := by
      rw [Nat.add_assoc, Nat.add_comm 1 j]
      exact hf (j + 1) (by simpa using hj)
    by_cases hbd : b = d
    · subst hbd
      have hrest := ih (start := a + 1) le_rfl (by omega) htail
      obtain ⟨c, cs, hcs, -⟩ := splitFrom_head (d := b) (bs := bs) (by omega) (le_refl (a + 1)) (by omega)
      have hcells : List.range' start (a + (bs.length + 1) - start) =
          List.range' start (a - start) ++ (a :: List.range' (a + 1) bs.length) := by
        obtain ⟨n, rfl⟩ := Nat.exists_eq_add_of_le h
        rw [← List.range'_succ, Nat.add_sub_cancel_left, List.range'_append_1, Nat.add_assoc, Nat.add_sub_cancel_left]
      rw [splitFrom_cons_delim, hcs, List.map_cons, List.map_cons, List.intercalate_cons_cons, ← List.map_cons, ← hcs,
        hrest, Candidate.slice_between f h (by omega), hcells]
      simp [hhead]
    · rw [splitFrom_cons_other hbd, ih (by omega) (by omega) htail]
      congr 2
      omega

/-! ### The table SCAN leaves -/

/-- A table entry past the split is kept (R140). -/
theorem State.putCandidates_candTable_of_le (s : State) {cs : List Candidate} {i : Nat} (h : cs.length ≤ i) :
    (s.putCandidates cs).candTable[i]? = s.candTable[i]? := by
  rw [State.putCandidates_candTable, List.getElem?_append_right h, List.getElem?_drop, Nat.add_sub_cancel' h]

/-- The split of a capture has no more entries than MAX_CANDS where the capture lies in IBUF (R142). -/
theorem split_length_le_maxCands {s : State} {bs : List Byte} (hbs : readCapture s = .ok bs)
    (h : s.inLen.toNat ≤ s.params.ibufSize) : (split s.cfg.delim bs).length ≤ s.params.maxCands := by
  have hsplit := split_length_le s.cfg.delim bs
  have hlen := (readCapture_ok hbs).1
  unfold Params.maxCands
  omega

/-- The candidates the table counts are the loop's over the capture `bs`, at delimiter `d` (R140). -/
structure TableHolds (t : State) (d : Byte) (bs : List Byte) : Prop where
  count : t.candCount.toNat = (splitFrom d 0 0 bs).length
  entry : ∀ j, j < t.candCount.toNat → (splitFrom d 0 0 bs)[j]? = some (t.candAt j)

section
variable {s t : State} {bs : List Byte} {d : Byte}

/-- SCAN of a capture of at least one byte leaves the loop's candidates (R140). -/
theorem tableHolds_of_scan (hbs : readCapture s = .ok bs) (hpos : 0 < bs.length) :
    TableHolds ((s.putCandidates (split s.cfg.delim bs)).raise .ok) s.cfg.delim bs := by
  obtain ⟨hcount, hentry⟩ := scan_table hbs
  rw [← hcount] at hentry
  rw [split_of_length_pos hpos] at hcount hentry ⊢
  exact ⟨hcount, hentry⟩

/-- A capture of at least one byte has a candidate. -/
theorem TableHolds.count_pos (h : TableHolds t d bs) : 0 < t.candCount.toNat := by
  rw [h.count, splitFrom_length]
  omega

/-- Every candidate the table counts is one of the loop's. -/
theorem TableHolds.mem (h : TableHolds t d bs) {j : Nat} (hj : j < t.candCount.toNat) :
    t.candAt j ∈ splitFrom d 0 0 bs := List.mem_of_getElem? (h.entry j hj)

/-- The first candidate starts at 0. -/
theorem TableHolds.first_start (h : TableHolds t d bs) (hfit : bs.length ≤ 65535) : (t.candAt 0).start = 0 := by
  obtain ⟨c, cs, hcs, hstart⟩ := splitFrom_head (d := d) (bs := bs) (Nat.zero_le _) (le_refl 0) (by omega)
  have hentry := h.entry 0 h.count_pos
  rw [hcs, List.getElem?_cons_zero, Option.some.injEq] at hentry
  exact BitVec.eq_of_toNat_eq (hentry ▸ hstart)

/-- The last candidate ends where the capture does. -/
theorem TableHolds.last_end (h : TableHolds t d bs) (hfit : bs.length ≤ 65535) :
    (t.candAt (t.candCount.toNat - 1)).start.toNat + (t.candAt (t.candCount.toNat - 1)).len.toNat = bs.length := by
  have hpos := h.count_pos
  have hentry := h.entry (t.candCount.toNat - 1) (by omega)
  rw [h.count, ← List.getLast?_eq_getElem?, ← h.count] at hentry
  have hlast := splitFrom_last (le_refl 0) (by omega) hentry
  omega

/-- Between two neighbours stands one delimiter. -/
theorem TableHolds.next_start (h : TableHolds t d bs) (hfit : bs.length ≤ 65535) {j : Nat}
    (hj : j + 1 < t.candCount.toNat) :
    (t.candAt (j + 1)).start.toNat = (t.candAt j).start.toNat + (t.candAt j).len.toNat + 1 ∧
      bs[(t.candAt j).start.toNat + (t.candAt j).len.toNat]? = some d := by
  obtain ⟨hstart, -, hdelim⟩ := splitFrom_chain (le_refl 0) (by omega) (h.entry j (by omega)) (h.entry (j + 1) hj)
  exact ⟨hstart, hdelim⟩

/-- No delimiter stands inside a candidate. -/
theorem TableHolds.no_delim (h : TableHolds t d bs) (hfit : bs.length ≤ 65535) {j k : Nat} (hj : j < t.candCount.toNat)
    (hk : k < (t.candAt j).len.toNat) : bs[(t.candAt j).start.toNat + k]? ≠ some d :=
  splitFrom_no_delim (le_refl 0) (by omega) (h.mem hj) hk (Nat.zero_le _)

/-- Every candidate lies in the capture. -/
theorem TableHolds.end_le (h : TableHolds t d bs) (hfit : bs.length ≤ 65535) {j : Nat} (hj : j < t.candCount.toNat) :
    (t.candAt j).start.toNat + (t.candAt j).len.toNat ≤ bs.length := by
  have hbounds := (splitFrom_bounds (le_refl 0) (by omega) _ (h.mem hj)).2
  omega

/-- The candidates of the table, in order. -/
theorem TableHolds.map_candAt (h : TableHolds t d bs) :
    (List.range t.candCount.toNat).map t.candAt = splitFrom d 0 0 bs := by
  refine List.ext_getElem? fun j => ?_
  rcases Nat.lt_or_ge j t.candCount.toNat with hj | hj
  · simp [h.entry j hj, hj]
  · rw [List.getElem?_eq_none (by simpa using hj), List.getElem?_eq_none (h.count ▸ hj)]

end

/-! ### The statements -/

/-- Settles O13: SCAN reads nothing but the capture. -/
theorem scanFaultsAtFirstUnwrittenCell : Obligations.ScanFaultsAtFirstUnwrittenCell :=
  fun _ _ _ => exec_scan_fault.trans readCapture_error_iff

/-- Settles O10: the capture can be read, and the loop's candidates chain from its start to its end. -/
theorem scanWritesTheSplit : Obligations.ScanWritesTheSplit := by
  intro idx s hwritten
  obtain ⟨bs, hbs⟩ := readCapture_of_written hwritten
  obtain ⟨hlen, hread⟩ := readCapture_ok hbs
  have hfit := capture_length_le hbs
  have hcount := (scan_table hbs).1
  refine ⟨_, (execScan_next idx).mpr ⟨bs, hbs, rfl⟩, rfl, ⟨rfl, fun _ => rfl, rfl, rfl, rfl⟩, ⟨rfl, rfl, rfl, rfl, rfl⟩,
    ⟨rfl, rfl, rfl, rfl, rfl, rfl, rfl, rfl⟩, fun i hi => ?kept, fun hzero => ?empty, fun hne => ?chain⟩
  case kept => exact State.putCandidates_candTable_of_le s (hcount ▸ hi)
  case empty =>
    have hnil : bs = [] := List.length_eq_zero_iff.mp (by rw [hlen, hzero]; rfl)
    rw [hnil]
    rfl
  case chain =>
    have hpos : 0 < bs.length := by
      have hne : s.inLen.toNat ≠ 0 := fun h => hne (BitVec.eq_of_toNat_eq h)
      omega
    have htable := tableHolds_of_scan hbs hpos
    refine ⟨htable.count_pos, htable.first_start hfit, (htable.last_end hfit).trans hlen, fun j hj => ?_,
      fun j k hj hk => ?_⟩
    · obtain ⟨hstart, hdelim⟩ := htable.next_start hfit hj
      have hin := htable.end_le hfit hj
      exact ⟨hstart, (hread _ (by omega)).trans hdelim⟩
    · have hin := htable.end_le hfit hj
      rw [hread _ (by omega)]
      exact htable.no_delim hfit hj hk

/-- Settles O11: the loop makes one candidate more than it meets delimiters. -/
theorem scanCountsDelimiters : Obligations.ScanCountsDelimiters := by
  intro idx s t h
  obtain ⟨bs, hbs, rfl⟩ := (execScan_next idx).mp h
  have hcount := (scan_table hbs).1
  refine ⟨?_, fun hin => hcount.trans_le (split_length_le_maxCands hbs hin)⟩
  have hdelims : ((List.range s.inLen.toNat).filter fun a => decide (Memory.read s.ibuf a = some s.cfg.delim)).length =
      bs.count s.cfg.delim := by
    rw [← List.count_map_of_injective bs some (Option.some_injective _), ← map_read_range_capture hbs, List.count,
      List.countP_map, List.countP_eq_length_filter]
    simp only [Function.comp_def, beq_eq_decide]
  rw [hcount, hdelims]
  have hlen := (readCapture_ok hbs).1
  split
  · next hzero =>
    have hnil : bs = [] := List.length_eq_zero_iff.mp (by rw [hlen, hzero]; rfl)
    rw [hnil]
    rfl
  · next hne =>
    have hne : s.inLen.toNat ≠ 0 := fun h => hne (BitVec.eq_of_toNat_eq h)
    rw [split_of_length_pos (by omega), splitFrom_length]

/-- Settles O12: the loop cuts nothing away but the delimiters. -/
theorem scanRoundTrip : Obligations.ScanRoundTrip := by
  intro idx s t h
  obtain ⟨bs, hbs, rfl⟩ := (execScan_next idx).mp h
  obtain ⟨hlen, hread⟩ := readCapture_ok hbs
  simp only [← Candidate.slice_eq_map_range]
  rcases Nat.eq_zero_or_pos bs.length with hzero | hpos
  · rw [← hlen, hzero, List.length_eq_zero_iff.mp hzero]
    rfl
  · have hfit := capture_length_le hbs
    have hread (j : Nat) (hj : j < bs.length) : Memory.read s.ibuf (0 + j) = bs[j]? := by
      rw [Nat.zero_add]
      exact hread j (by omega)
    have hjoin := splitFrom_join (d := s.cfg.delim) (le_refl 0) (by omega) hread
    rw [← (tableHolds_of_scan hbs hpos).map_candAt, List.map_map, Nat.zero_add, Nat.sub_zero,
      ← List.range_eq_range', hlen] at hjoin
    exact hjoin

end Sys2Proof.Machine
end

section
/-! Proofs of the statements about the ENGINE's turns (40_control.md R121, 20_memory.md R79): when the ENGINE moves, and
what one of its turns does. -/

namespace Sys2Proof.Machine

/-! ### Whose turn it is -/

/-- The ENGINE moves next: the schedule says so, or no turn is left (log 2). -/
def State.EngineTurn (s : State) : Prop := s.turns = [] ∨ ∃ rest, s.turns = .engine :: rest

/-- The next turn is the ENGINE's, the HOST's or a reset (R79). -/
theorem State.engineTurn_or_host_or_reset (s : State) :
    s.EngineTurn ∨ (∃ tr rest, s.turns = .host tr :: rest) ∨ ∃ rest, s.turns = .reset :: rest := by
  cases ht : s.turns with
  | nil => exact .inl (.inl ht)
  | cons turn rest =>
    cases turn with
    | host tr => exact .inr (.inl ⟨tr, rest, rfl⟩)
    | engine => exact .inl (.inr ⟨rest, ht⟩)
    | reset => exact .inr (.inr ⟨rest, rfl⟩)

/-- With no turn left, taking one off the schedule changes nothing. -/
theorem State.turns_tail_of_nil {s : State} (ht : s.turns = []) : { s with turns := s.turns.tail } = s := by
  have htail : s.turns.tail = s.turns := by rw [ht]; rfl
  rw [htail]

/-- The step of an ENGINE's turn, scheduled or not. -/
theorem step_of_engineTurn {s : State} (h : s.EngineTurn) : step s = engineStep { s with turns := s.turns.tail } := by
  rcases h with ht | ⟨rest, ht⟩
  · rw [State.turns_tail_of_nil ht]
    simp only [step, ht]
  · simp only [step, ht, List.tail_cons]

/-- A HOST's turn. -/
theorem step_host {s : State} {tr : Transaction} {rest : List Turn} (ht : s.turns = .host tr :: rest) :
    step s = .next (transact tr { s with turns := rest }) := by
  simp only [step, ht]

/-- What a step that has a next state did: the ENGINE passed or completed a command, the HOST made a transaction, or the
block was reset. -/
theorem step_cases {s t : State} (h : step s = .next t) :
    (s.EngineTurn ∧ s.pend = none ∧ t = { s with turns := s.turns.tail }) ∨
    (s.EngineTurn ∧ ∃ i u, s.pend = some i ∧ exec i { s with turns := s.turns.tail } = .next u ∧ t = u.complete) ∨
    (∃ tr rest, s.turns = .host tr :: rest ∧ t = transact tr { s with turns := rest }) ∨
    ∃ rest, s.turns = .reset :: rest ∧ t = State.resetStep { s with turns := rest } := by
  rcases s.engineTurn_or_host_or_reset with hturn | ⟨tr, rest, ht⟩ | ⟨rest, ht⟩
  · rw [step_of_engineTurn hturn] at h
    rcases engineStep_next.mp h with ⟨hpend, ht⟩ | hcmd
    · exact .inl ⟨hturn, hpend, ht⟩
    · exact .inr (.inl ⟨hturn, hcmd⟩)
  · rw [step_host ht] at h
    cases h
    exact .inr (.inr (.inl ⟨tr, rest, ht, rfl⟩))
  · rw [step_reset ht] at h
    cases h
    exact .inr (.inr (.inr ⟨rest, ht, rfl⟩))

/-! ### One turn of the ENGINE -/

/-- While nothing is pending the ENGINE passes (log 3). -/
theorem engineStep_of_idle {s : State} (h : s.pend = none) : engineStep s = .next s :=
  engineStep_next.mpr (.inl ⟨h, rfl⟩)

/-- A pending command's fault is the turn's (R121). -/
theorem engineStep_of_fault {s : State} {i : Instr} {f : Fault} (h : s.pend = some i) (hexec : exec i s = .fault f) :
    engineStep s = .fault f := by
  simp only [engineStep, h, hexec]

/-! ### The statements -/

/-- Settles O4: the turn is `engineStep`, and its completion is `complete()` written out. -/
theorem engineTurnRunsPendingCommand : Obligations.EngineTurnRunsPendingCommand := by
  intro s i rest ht hpend
  rw [step_of_engineTurn (.inr ⟨rest, ht⟩), ht, List.tail_cons, engineStep]
  simp only [hpend]
  cases exec i { s with turns := rest } <;> rfl

/-- Settles O5: with no turn left the ENGINE moves, and it passes while nothing is pending. -/
theorem scheduleWithoutEngineWork : Obligations.ScheduleWithoutEngineWork := by
  refine fun s => ⟨fun ht => ?_, fun rest ht hpend => ?_, fun ht hpend => ?_⟩
  · rw [step_of_engineTurn (.inl ht), step_of_engineTurn (.inr ⟨[], rfl⟩), ht]
    rfl
  · rw [step_of_engineTurn (.inr ⟨rest, ht⟩), ht, List.tail_cons]
    exact engineStep_of_idle hpend
  · rw [step_of_engineTurn (.inl ht), State.turns_tail_of_nil ht, engineStep_of_idle hpend]

/-- A table word of 32 bits is a command exactly where the decoder reads one (30_encoding.md R105). -/
theorem decodeTableWord_32 (w : Nat) : decodeTableWord 32 w = (decode (tableWord 32 w)).toOption := if_pos (le_refl 32)

/-- Settles O8: a legal word is latched with the ENGINE next, an illegal one is written to CMD by the HOST while idle. -/
theorem placedWordRunsNext : Obligations.PlacedWordRunsNext := by
  intro s w
  cases hdecode : decode (tableWord 32 w) with
  | ok i =>
    have hword : decodeTableWord 32 w = some i := by rw [decodeTableWord_32, hdecode]; rfl
    have hplaced : s.withFetchWord 32 w =
        { s with pend := some i, status := s.status.issue, turns := .engine :: s.turns } := by
      simp only [State.withFetchWord, hdecode]
    refine ⟨fun j hj => ?_, fun hnone => by rw [hword] at hnone; cases hnone⟩
    obtain rfl : i = j := Option.some.inj (hword.symm.trans hj)
    rw [hplaced]
    exact engineTurnRunsPendingCommand _ i s.turns rfl rfl
  | error e =>
    have hword : decodeTableWord 32 w = none := by rw [decodeTableWord_32, hdecode]; rfl
    have hplaced : s.withFetchWord 32 w = { s with
        pend := none
        status := { s.status with busy := false }
        turns := .host (.write 0x00000 .word (tableWord 32 w)) :: s.turns } := by
      simp only [State.withFetchWord, hdecode]
    refine ⟨fun j hj => (by rw [hword] at hj; cases hj), fun _ => ?_⟩
    have hillegal (j : Instr) : decode (tableWord 32 w) ≠ .ok j := by rw [hdecode]; simp
    rw [hplaced, step_write_cmd_idle rfl rfl, issue_of_illegal hillegal]
    exact ⟨_, rfl, rfl, rfl, rfl⟩

end Sys2Proof.Machine
end

section
/-! Proofs of the statements about consistent states (10_state.md sections 4, 6 and 7): candidates lie in the capture, decodes
complete, every step keeps the invariant, only a SCAN of unwritten bytes faults, and a pending command completes. -/

namespace Sys2Proof.Machine

/-! ### Candidates and the bytes they hold -/

/-- A part of written cells is written. -/
theorem Written.sub {m : Memory} {a n k j : Nat} (h : Written m a n) (hk : k + j ≤ n) : Written m (a + k) j := by
  intro i hi
  rw [Nat.add_assoc]
  exact h (k + i) (by omega)

/-- Settles O22: a table that counts a candidate is current, so the candidate is one of the capture's split. -/
theorem candidatesLieInTheCapture : Obligations.CandidatesLieInTheCapture := by
  intro s hs i hi
  have hcurrent : s.tableCurrent = true := hs.table.resolve_left fun hzero => by
    rw [hzero] at hi
    cases hi
  obtain ⟨bs, hbs, -, hentry⟩ := tableCurrent_entry hcurrent
  obtain ⟨hlen, hread⟩ := readCapture_ok hbs
  have hend := split_bounds (capture_length_le hbs) _ (List.mem_of_getElem? (hentry i hi))
  refine ⟨by omega, hs.inLen, fun j hj => ?_⟩
  rw [hread _ (by omega), List.getElem?_eq_getElem (by omega)]
  rfl

/-- A written candidate of at least 10 bytes has a timestamp (42_extractor.md R162). -/
theorem extractTs_of_written {c : Candidate} {s : State} (h : Written s.ibuf c.start.toNat c.len.toNat)
    (hlong : 10 ≤ c.len.toNat) : ∃ ts, extractTs c s = .ok ts := by
  cases hts : extractTs c s with
  | ok ts => exact ⟨ts, rfl⟩
  | error f =>
    obtain ⟨j, hj, -, hnone, -⟩ := extractTs_error_iff.mp hts
    have hsome := h.sub (k := 6) (j := 4) (by omega) j hj
    rw [hnone] at hsome
    cases hsome

/-- The payload's groups lie in their candidate (R163, R164). -/
theorem payload_written {s : State} {idx : Half}
    (h : Written s.ibuf (s.candAt idx.toNat).start.toNat (s.candAt idx.toNat).len.toNat) :
    Written s.ibuf ((s.candAt idx.toNat).start.toNat + s.params.payloadOffset) (2 * (payloadOf s idx / 2)) := by
  unfold payloadOf
  split
  · exact h.sub (by omega)
  · intro j hj
    omega

/-- A decode completes in every consistent state (R169). -/
theorem decode_completes {s : State} (hs : Inv s) {i : Instr} {idx : Half}
    (hi : i = .decTs idx ∨ i = .decSamp idx ∨ i = .decFull idx) : ∃ t, exec i s = .next t := by
  rcases Nat.lt_or_ge idx.toNat s.candCount.toNat with hidx | hidx
  · obtain ⟨-, -, hwritten⟩ := candidatesLieInTheCapture s hs _ hidx
    obtain ⟨vs, hvs⟩ := extractSamples_of_written (payload_written hwritten)
    rcases Nat.lt_or_ge (s.candAt idx.toNat).len.toNat 10 with hshort | hlong
    · rcases hi with rfl | rfl | rfl
      · exact ⟨_, exec_of_short (.inl rfl) hidx hshort⟩
      · exact ⟨_, exec_decSamp_of_samples hidx hvs⟩
      · exact ⟨_, exec_of_short (.inr rfl) hidx hshort⟩
    · obtain ⟨ts, hts⟩ := extractTs_of_written hwritten hlong
      rcases hi with rfl | rfl | rfl
      · exact ⟨_, exec_decTs_of_timestamp hidx hlong hts⟩
      · exact ⟨_, exec_decSamp_of_samples hidx hvs⟩
      · exact ⟨_, exec_decFull_of_fields hidx hlong hts hvs⟩
  · exact ⟨_, exec_of_badIndex hi hidx⟩

/-- Settles O23: every candidate's bytes have been written. -/
theorem decodeNeverFaults : Obligations.DecodeNeverFaults :=
  fun _ hs _ => ⟨decode_completes hs (.inl rfl), decode_completes hs (.inr (.inl rfl)),
    decode_completes hs (.inr (.inr rfl))⟩

/-! ### What keeps the invariant -/

/-- The invariant carries over where the inputs are the same, for as much as rests on them. -/
theorem Inv.of_sameInputs {s t : State} (hs : Inv s) (hin : SameInputs s t) (hbusy : t.status.busy = t.pend.isSome)
    (hclear : t.status.busy = true →
      t.status.done = false ∧ t.status.code = .ok ∧ t.status.odd = false ∧ t.status.nominal = false)
    (htable : t.candCount = 0 ∨ t.tableCurrent = true)
    (hsamples : t.resNsamp.toNat ≤ s.params.maxSamp ∧ t.resNsamp.toNat ≤ t.resSamp.length) : Inv t := by
  obtain ⟨hparams, -, hibuf, hinLen, -⟩ := hin
  exact {
    params := hparams ▸ hs.params
    ibufForm := hibuf ▸ hs.ibufForm
    ibufRange := by rw [hibuf, hparams]; exact hs.ibufRange
    inLen := by rw [hinLen, hparams]; exact hs.inLen
    busyPend := hbusy
    busyClear := hclear
    table := htable
    samples := hparams ▸ hsamples }

/-- Whether the table is invalid or current is decided by the inputs and the table. -/
theorem Inv.table_of_same {s t : State} (hs : Inv s) (hin : SameInputs s t) (htable : SameTable s t) :
    t.candCount = 0 ∨ t.tableCurrent = true := by
  obtain ⟨-, -, hibuf, hinLen, hcfg⟩ := hin
  obtain ⟨hcount, hentries⟩ := htable
  rw [State.tableCurrent, readCapture, hibuf, hinLen, hcfg, hcount, hentries]
  exact hs.table

/-- SCAN leaves a current table (R40). -/
theorem tableCurrent_of_scan {s : State} {bs : List Byte} (hbs : readCapture s = .ok bs) :
    ((s.putCandidates (split s.cfg.delim bs)).raise .ok).tableCurrent = true := by
  have hcount := (scan_table hbs).1
  have hsame : readCapture ((s.putCandidates (split s.cfg.delim bs)).raise .ok) = .ok bs := hbs
  rw [State.tableCurrent, hsame]
  refine decide_eq_true ⟨?_, hcount⟩
  rw [hcount]
  exact List.take_left

/-- A decode's sample count stays within RES_SAMP and what has been written of it (R43). -/
theorem decode_keeps_samples {s t : State} (hs : Inv s) {i : Instr} {idx : Half}
    (hi : i = .decTs idx ∨ i = .decSamp idx ∨ i = .decFull idx) (h : exec i s = .next t) :
    t.resNsamp.toNat ≤ s.params.maxSamp ∧ t.resNsamp.toNat ≤ t.resSamp.length := by
  obtain ⟨-, rfl⟩ | ⟨hidx, ⟨-, -, rfl⟩ | ⟨-, -, ts, -, rfl⟩ | ⟨ts, vs, hvs, rfl, -⟩⟩ := decode_ends hi h
  · exact hs.samples
  · exact ⟨Nat.zero_le _, Nat.zero_le _⟩
  · exact ⟨Nat.zero_le _, Nat.zero_le _⟩
  · have hcount := (samplesExtracted_decoded ts hvs).1
    have hlen := (extractSamples_ok hvs).1
    obtain ⟨hend, hin, -⟩ := candidatesLieInTheCapture s hs _ hidx
    refine ⟨?_, ?_⟩
    · rw [hcount, payloadOf, Params.maxSamp]
      split <;> split <;> omega
    · rw [hcount, ← hlen]
      exact Nat.le.intro List.length_append.symm

/-- A command leaves the table invalid or current, and the sample count within its bounds. -/
theorem exec_keeps_table_and_samples {s t : State} (hs : Inv s) {i : Instr} (h : exec i s = .next t) :
    (t.candCount = 0 ∨ t.tableCurrent = true) ∧
      t.resNsamp.toNat ≤ s.params.maxSamp ∧ t.resNsamp.toNat ≤ t.resSamp.length := by
  rcases nop_or_scan_or_decode i with ⟨idx, rfl⟩ | ⟨idx, rfl⟩ | ⟨idx, hi⟩
  · cases h
    exact ⟨hs.table, hs.samples⟩
  · obtain ⟨bs, hbs, rfl⟩ := (execScan_next idx).mp h
    exact ⟨.inr (tableCurrent_of_scan hbs), hs.samples⟩
  · obtain ⟨hin, htable, -⟩ := decode_frame hi h
    exact ⟨hs.table_of_same hin htable, decode_keeps_samples hs hi h⟩

/-- The completion of a command keeps the invariant: BUSY and PEND are cleared together (40_control.md R121). -/
theorem exec_complete_inv {s t : State} (hs : Inv s) {i : Instr} (h : exec i s = .next t) : Inv t.complete := by
  obtain ⟨hin, -⟩ := commandFootprint i s t h
  obtain ⟨htable, hsamples⟩ := exec_keeps_table_and_samples hs h
  exact hs.of_sameInputs (t := t.complete) hin rfl (fun hbusy => by cases hbusy) htable hsamples

/-- The model's own fields are no part of the invariant (log 1, 5, 10). -/
theorem Inv.of_schedule {s : State} (hs : Inv s) (turns : List Turn) : Inv { s with turns := turns } :=
  hs.of_sameInputs ⟨rfl, fun _ => rfl, rfl, rfl, rfl⟩ hs.busyPend hs.busyClear hs.table hs.samples

/-- Issue while idle keeps the invariant: a legal word sets BUSY and PEND together and clears the per-command fields, an
illegal one leaves the block idle (40_control.md R120, R122). -/
theorem issue_inv {s : State} (hs : Inv s) (hidle : s.status.busy = false) (v : Word) : Inv (issue v s) := by
  cases hdecode : decode v with
  | ok i =>
    rw [issue_of_legal hdecode]
    exact hs.of_sameInputs ⟨rfl, fun _ => rfl, rfl, rfl, rfl⟩ rfl (fun _ => ⟨rfl, rfl, rfl, rfl⟩) hs.table hs.samples
  | error e =>
    rw [issue_of_illegal (by simp [hdecode])]
    have hbusy : s.status.badCmd.busy = true → False := by simp [hidle]
    exact hs.of_sameInputs ⟨rfl, fun _ => rfl, rfl, rfl, rfl⟩ hs.busyPend (fun h => (hbusy h).elim) hs.table hs.samples

/-- An accepted write keeps the invariant: an input write stays within the bounds of its field and invalidates the table
(20_memory.md R64, R70, R73). -/
theorem writeLoc_inv {s : State} (hs : Inv s) {a : Addr} {sz : Size} {l : Loc} (hl : locate s.params a sz = some l)
    (hw : l.writable = true) (v : Word) : Inv (writeLoc l v s) := by
  rcases writeLoc_cases hw v s with ⟨-, h⟩ | ⟨-, h⟩ | ⟨hidle, ⟨-, h⟩ | ⟨-, h⟩ | ⟨-, h⟩ | ⟨i, rfl, h⟩⟩ <;> rw [h]
  case inr.inr.inl => exact issue_inv hs hidle v
  case inr.inr.inr.inl =>
    exact ⟨hs.params, hs.ibufForm, hs.ibufRange, hs.inLen, hs.busyPend, hs.busyClear, .inl rfl, hs.samples⟩
  case inr.inr.inr.inr.inl =>
    have hclamp : (BitVec.ofNat 16 (min v.toNat s.params.ibufSize)).toNat ≤ s.params.ibufSize :=
      (Nat.mod_le _ _).trans (Nat.min_le_right _ _)
    exact ⟨hs.params, hs.ibufForm, hs.ibufRange, hclamp, hs.busyPend, hs.busyClear, .inl rfl, hs.samples⟩
  case inr.inr.inr.inr.inr =>
    have hrange : ∀ c ∈ Memory.write s.ibuf i (v.extractLsb' 0 8), c.1 < s.params.ibufSize := by
      intro c hc
      rcases Memory.mem_write hc with rfl | hc
      · exact (locate_ibuf hl).2.2
      · exact hs.ibufRange c hc
    exact ⟨hs.params, Memory.write_keeps_wf hs.ibufForm _ _, hrange, hs.inLen, hs.busyPend, hs.busyClear, .inl rfl,
      hs.samples⟩
  all_goals exact hs.of_sameInputs ⟨rfl, fun _ => rfl, rfl, rfl, rfl⟩ hs.busyPend hs.busyClear hs.table hs.samples

/-- A transaction keeps the invariant. -/
theorem transact_inv {s : State} (hs : Inv s) (tr : Transaction) : Inv (transact tr s) := by
  rcases transact_cases tr s with h | ⟨a, sz, l, -, -, h⟩ | ⟨a, sz, v, l, -, hl, hw, h⟩ <;> rw [h]
  case inr.inr =>
    have hwritten := writeLoc_inv hs hl hw v
    exact hwritten.of_sameInputs ⟨rfl, fun _ => rfl, rfl, rfl, rfl⟩ hwritten.busyPend hwritten.busyClear hwritten.table
      hwritten.samples
  all_goals exact hs.of_sameInputs ⟨rfl, fun _ => rfl, rfl, rfl, rfl⟩ hs.busyPend hs.busyClear hs.table hs.samples

/-- Settles O43: after reset nothing is written, pending or counted. -/
theorem resetStatesAreConsistent : Obligations.ResetStatesAreConsistent := fun p hp => {
  params := hp
  ibufForm := rfl
  ibufRange := fun _ hc => by cases hc
  inLen := Nat.zero_le _
  busyPend := rfl
  busyClear := fun hbusy => by cases hbusy
  table := .inl rfl
  samples := ⟨Nat.zero_le _, Nat.zero_le _⟩ }

/-- A reset step leads to the reset state but for the model's own fields (70_reset_and_hazards.md R230). -/
theorem resetStep_inv {s : State} (hs : Inv s) : Inv s.resetStep := by
  have hreset := resetStatesAreConsistent s.params hs.params
  exact hreset.of_sameInputs ⟨rfl, fun _ => rfl, rfl, rfl, rfl⟩ hreset.busyPend hreset.busyClear hreset.table
    hreset.samples

/-- Settles O44: each turn keeps the invariant, whoever's it is. -/
theorem stepKeepsConsistency : Obligations.StepKeepsConsistency := by
  intro s t hs h
  rcases step_cases h with ⟨-, -, rfl⟩ | ⟨-, i, u, -, hexec, rfl⟩ | ⟨tr, rest, -, rfl⟩ | ⟨rest, -, rfl⟩
  · exact hs.of_schedule _
  · exact exec_complete_inv (hs.of_schedule _) hexec
  · exact transact_inv (hs.of_schedule rest) tr
  · exact resetStep_inv (hs.of_schedule rest)

/-! ### Faults -/

/-- In a consistent state a command completes, or is a SCAN that faults at the capture's first unwritten cell. -/
theorem exec_next_or_scan_fault {s : State} (hs : Inv s) (i : Instr) : (∃ t, exec i s = .next t) ∨
    ∃ idx a, i = .scan idx ∧ a < s.inLen.toNat ∧ Memory.read s.ibuf a = none ∧
      (∀ b, b < a → Memory.read s.ibuf b ≠ none) ∧ exec i s = .fault (.uninitRead a) := by
  rcases nop_or_scan_or_decode i with ⟨idx, rfl⟩ | ⟨idx, rfl⟩ | ⟨idx, hi⟩
  · exact .inl ⟨_, exec_nop idx s⟩
  · cases hcapture : readCapture s with
    | ok bs => exact .inl ⟨_, (execScan_next idx).mpr ⟨bs, hcapture, rfl⟩⟩
    | error f =>
      obtain ⟨a, ha, rfl, hnone, hfirst⟩ := readCapture_error_iff.mp hcapture
      exact .inr ⟨idx, a, rfl, ha, hnone, hfirst, exec_scan_fault.mpr hcapture⟩
  · exact .inl (decode_completes hs hi)

/-- Settles O45: of the commands only SCAN reads bytes that a consistent state leaves unwritten. -/
theorem onlyScanOfUnwrittenBytesFaults : Obligations.OnlyScanOfUnwrittenBytesFaults := by
  intro s hs
  rcases s.engineTurn_or_host_or_reset with hturn | ⟨tr, rest, ht⟩ | ⟨rest, ht⟩
  · rw [step_of_engineTurn hturn]
    rcases Option.eq_none_or_eq_some s.pend with hpend | ⟨i, hpend⟩
    · exact .inl ⟨_, engineStep_of_idle hpend⟩
    · rcases exec_next_or_scan_fault (hs.of_schedule s.turns.tail) i with
        ⟨t, hexec⟩ | ⟨idx, a, rfl, ha, hnone, hfirst, hexec⟩
      · exact .inl ⟨_, engineStep_next.mpr (.inr ⟨i, t, hpend, hexec, rfl⟩)⟩
      · exact .inr ⟨idx, a, hpend, hturn, ha, hnone, hfirst, engineStep_of_fault hpend hexec⟩
  · exact .inl ⟨_, step_host ht⟩
  · exact .inl ⟨_, step_reset ht⟩

/-! ### A pending command completes -/

/-- A step takes one turn off the schedule. -/
theorem step_turns {s t : State} (h : step s = .next t) : t.turns = s.turns.tail := by
  rcases step_cases h with ⟨-, -, rfl⟩ | ⟨-, i, u, -, hexec, rfl⟩ | ⟨tr, rest, ht, rfl⟩ | ⟨rest, ht, rfl⟩
  · rfl
  · obtain ⟨-, ⟨-, -, -, -, -, hturns, -⟩, -⟩ := commandFootprint i _ u hexec
    exact hturns
  · rw [transact_turns, ht, List.tail_cons]
  · rw [State.resetStep_turns, ht, List.tail_cons]

/-- An ENGINE's turn leaves nothing pending. -/
theorem step_pend_of_engineTurn {s t : State} (hturn : s.EngineTurn) (h : step s = .next t) : t.pend = none := by
  rw [step_of_engineTurn hturn] at h
  rcases engineStep_next.mp h with ⟨hpend, rfl⟩ | ⟨i, u, -, -, rfl⟩
  · exact hpend
  · rfl

/-- A command pending or completed stays so through every turn but a reset (10_state.md R31). -/
theorem step_pend_or_done {s t : State} (h : step s = .next t) (hreset : Turn.reset ∉ s.turns)
    (hd : s.pend.isSome = true ∨ s.status.done = true) : t.pend.isSome = true ∨ t.status.done = true := by
  rcases step_cases h with ⟨-, -, rfl⟩ | ⟨-, i, u, -, -, rfl⟩ | ⟨tr, rest, -, rfl⟩ | ⟨rest, ht, -⟩
  · exact hd
  · exact .inr rfl
  · exact transact_pend_or_done tr hd
  · exact absurd (ht ▸ List.mem_cons_self) hreset

/-- A run past its turns ends with no turn left and nothing pending. -/
theorem run_past_turns_idle {s t : State} (h : Host.Core.run core (s.turns.length + 1) s = .next t) :
    t.pend = none ∧ t.turns = [] := by
  generalize hturns : s.turns = turns at h
  induction turns generalizing s with
  | nil =>
    obtain ⟨u, hstep, hrun⟩ := core_run_next h
    cases hrun
    exact ⟨step_pend_of_engineTurn (.inl hturns) hstep, by rw [step_turns hstep, hturns]; rfl⟩
  | cons turn rest ih =>
    obtain ⟨u, hstep, hrun⟩ := core_run_next h
    exact ih (by rw [step_turns hstep, hturns]; rfl) hrun

/-- Without a reset among the turns, a command pending or completed at the start is so at the end. -/
theorem run_pend_or_done {s t : State} {k : Nat} (h : Host.Core.run core k s = .next t)
    (hreset : Turn.reset ∉ s.turns) (hd : s.pend.isSome = true ∨ s.status.done = true) :
    t.pend.isSome = true ∨ t.status.done = true := by
  induction k generalizing s with
  | zero =>
    cases h
    exact hd
  | succ k ih =>
    obtain ⟨u, hstep, hrun⟩ := core_run_next h
    have hreset' : Turn.reset ∉ u.turns := by
      rw [step_turns hstep]
      exact fun hmem => hreset (List.mem_of_mem_tail hmem)
    exact ih hrun hreset' (step_pend_or_done hstep hreset hd)

/-- Every run keeps the invariant. -/
theorem run_keeps_inv {s t : State} {k : Nat} (hs : Inv s) (h : Host.Core.run core k s = .next t) : Inv t := by
  induction k generalizing s with
  | zero =>
    cases h
    exact hs
  | succ k ih =>
    obtain ⟨u, hstep, hrun⟩ := core_run_next h
    exact ih (stepKeepsConsistency s u hs hstep) hrun

/-- After `k` steps of a run command `i` is still pending; it is then executed, and the next step of the run is its
completion. -/
def CompletesAfter (i : Instr) (k : Nat) (s : State) : Prop :=
  ∃ u v, Host.Core.run core k s = .next u ∧ u.pend = some i ∧ exec i { u with turns := u.turns.tail } = .next v ∧
    Host.Core.run core (k + 1) s = .next v.complete

/-- A command pending on an ENGINE's turn completes at once. -/
theorem completesAfter_zero {s t : State} {i : Instr} (hturn : s.EngineTurn) (hpend : s.pend = some i)
    (h : step s = .next t) : CompletesAfter i 0 s := by
  have hengine := h
  rw [step_of_engineTurn hturn] at hengine
  rcases engineStep_next.mp hengine with ⟨hnone, -⟩ | ⟨j, v, hj, hexec, rfl⟩
  · cases hpend.symm.trans hnone
  · obtain rfl : i = j := Option.some.inj (hpend.symm.trans hj)
    exact ⟨s, v, rfl, hpend, hexec, core_run_of_next 0 h⟩

/-- What completes after `k` steps of the next state completes a step later. -/
theorem CompletesAfter.succ {s t : State} {i : Instr} {k : Nat} (h : step s = .next t) (ht : CompletesAfter i k t) :
    CompletesAfter i (k + 1) s := by
  obtain ⟨u, v, hrun, hpend, hexec, hnext⟩ := ht
  exact ⟨u, v, (core_run_of_next k h).trans hrun, hpend, hexec, (core_run_of_next (k + 1) h).trans hnext⟩

/-- Without a reset among the turns a pending command completes before they have run out: while busy the HOST cannot
replace it (20_memory.md R71). -/
theorem pending_completesAfter {s t : State} {i : Instr} (hs : Inv s)
    (h : Host.Core.run core (s.turns.length + 1) s = .next t) (hpend : s.pend = some i)
    (hreset : Turn.reset ∉ s.turns) : ∃ k, k ≤ s.turns.length ∧ CompletesAfter i k s := by
  generalize hturns : s.turns = turns at h hreset
  induction turns generalizing s with
  | nil =>
    obtain ⟨u, hstep, -⟩ := core_run_next h
    exact ⟨0, Nat.zero_le _, completesAfter_zero (.inl hturns) hpend hstep⟩
  | cons turn rest ih =>
    obtain ⟨u, hstep, hrun⟩ := core_run_next h
    cases turn with
    | engine => exact ⟨0, Nat.zero_le _, completesAfter_zero (.inr ⟨rest, hturns⟩) hpend hstep⟩
    | reset => exact absurd List.mem_cons_self hreset
    | host tr =>
      have hu : transact tr { s with turns := rest } = u := by
        rw [step_host hturns] at hstep
        exact Host.Outcome.next.inj hstep
      have hbusy : s.status.busy = true := by rw [hs.busyPend, hpend]; rfl
      have hpendu : u.pend = some i := by
        rw [← hu]
        exact (transact_pend_of_busy tr (s := { s with turns := rest }) hbusy).trans hpend
      have hrest : Turn.reset ∉ rest := fun hmem => hreset (List.mem_cons_of_mem _ hmem)
      have hturnsu : u.turns = rest := by rw [step_turns hstep, hturns]; rfl
      obtain ⟨k, hk, hcompletes⟩ := ih (stepKeepsConsistency s u hs hstep) hpendu hturnsu hrun hrest
      exact ⟨k + 1, Nat.succ_le_succ hk, hcompletes.succ hstep⟩

/-- Settles O46: each turn is taken, and the ENGINE has one before the run's end. -/
theorem pendingCommandCompletes : Obligations.PendingCommandCompletes := by
  intro s t hs h
  obtain ⟨hidle, hturns⟩ := run_past_turns_idle h
  have hbusy : t.status.busy = false := by rw [(run_keeps_inv hs h).busyPend, hidle]; rfl
  refine ⟨⟨hidle, hbusy, hturns⟩, fun i hpend hreset => ?_⟩
  have hdone := run_pend_or_done h hreset (.inl (by rw [hpend]; rfl))
  obtain ⟨k, hk, u, v, hrun, hpendu, hexec, hnext⟩ := pending_completesAfter hs h hpend hreset
  exact ⟨hdone.resolve_left (by simp [hidle]), k, u, v, hk, hrun, hpendu, hexec, hnext⟩

end Sys2Proof.Machine
end

section
/-! Proofs of the statements about input writes while idle (20_memory.md R70, R73): the field written, the candidate table
invalidated, and what a decode then answers (70_reset_and_hazards.md R235); and of the statement about accepted reads. -/

namespace Sys2Proof.Machine

/-! ### The addresses of the registers -/

/-- The address of a register (R62). -/
def Reg.address : Reg → Nat
  | .cmd => 0x00000
  | .status => 0x00004
  | .cfg => 0x00008
  | .inLen => 0x0000C
  | .param => 0x00010
  | .candCount => 0x00014
  | .resIdx => 0x00018
  | .resFlen => 0x0001C
  | .resTs => 0x00020
  | .resNsamp => 0x00024

/-- `regAt` finds the register of an address. -/
theorem regAt_eq_some_iff {n : Nat} {r : Reg} : regAt n = some r ↔ n = r.address := by
  constructor
  · intro h
    unfold regAt at h
    split at h <;> cases h <;> rfl
  · rintro rfl
    cases r <;> rfl

/-- A register is reached by a word access at its address alone (R62, R63). -/
theorem locate_reg {p : Params} {a : Addr} {sz : Size} {r : Reg} (h : locate p a sz = some (.reg r)) :
    sz = .word ∧ a.toNat = r.address := by
  cases sz with
  | byte =>
    simp only [locate, byteLoc] at h
    split at h <;> cases h
  | word =>
    refine ⟨rfl, regAt_eq_some_iff.mp ?_⟩
    simp only [locate, wordLoc] at h
    split at h
    · simpa using h
    · repeat' split at h
      all_goals cases h

/-! ### One input write -/

/-- The words of CFG: the written bits 8:0, and zeros above (10_state.md R25, R28). -/
theorem Cfg.word_ofWord (v : Word) : (Cfg.ofWord v).word = v &&& 0x1FF := by
  have hbit : (ByteOrder.ofBit (v.getLsbD 8)).bit.toNat = v.toNat / 2 ^ 8 % 2 := by
    rw [← Nat.toNat_testBit, ← BitVec.getLsbD]
    cases v.getLsbD 8 <;> rfl
  apply BitVec.eq_of_toNat_eq
  rw [BitVec.toNat_and, show BitVec.toNat (0x1FF : Word) = 2 ^ 9 - 1 from rfl, Nat.and_two_pow_sub_one_eq_mod, Cfg.word,
    Cfg.ofWord]
  simp only [BitVec.toNat_append, BitVec.extractLsb'_toNat, hbit, Nat.shiftRight_zero]
  rw [← Nat.shiftLeft_add_eq_or_of_lt (by omega), Nat.shiftLeft_eq]
  simp only [BitVec.toNat_ofNat, Nat.zero_mod, Nat.zero_shiftLeft, Nat.zero_or]
  omega

/-- IN_LEN holds the clamped value without loss (10_state.md R24). -/
theorem inLen_clamp_toNat {p : Params} (hp : p.Valid) (v : Word) :
    (BitVec.ofNat 16 (min v.toNat p.ibufSize)).toNat = min v.toNat p.ibufSize := by
  obtain ⟨-, hsize, -⟩ := hp
  exact Nat.mod_eq_of_lt (by omega)

/-- A turn that writes a location while idle, STATUS apart (R70). -/
theorem step_write_idle {s : State} {rest : List Turn} {a : Addr} {sz : Size} {l : Loc} {v : Word}
    (ht : s.turns = .host (.write a sz v) :: rest) (hl : locate s.params a sz = some l) (hw : l.writable = true)
    (hs : l ≠ .reg .status) (hidle : s.status.busy = false) :
    step s = .next ((writeIdle l v { s with turns := rest }).respond (.write .ok)) := by
  rw [step_write ht hl hw, writeLoc_idle hs hidle]

/-- An accepted input write while idle: the field it names and CAND_COUNT = 0 (R73). -/
theorem step_inputWrite {s : State} {rest : List Turn} {a : Addr} {sz : Size} {v : Word}
    (ht : s.turns = .host (.write a sz v) :: rest) (hidle : s.status.busy = false)
    (h : InputWriteAccepted s.params a.toNat sz) :
    ∃ cfg inLen ibuf,
      step s = .next { s with
        turns := rest, log := .write .ok :: s.log, candCount := 0, cfg := cfg, inLen := inLen, ibuf := ibuf } ∧
      (a ≠ 0x00008 → cfg = s.cfg) ∧ (a ≠ 0x0000C → inLen = s.inLen) ∧ (sz = .word → ibuf = s.ibuf) := by
  obtain ⟨l, hl, hw, rfl | rfl | ⟨i, rfl⟩⟩ := inputWrite_loc h
  · have ha : a = 0x00008 := BitVec.eq_of_toNat_eq (locate_reg hl).2
    exact ⟨_, _, _, step_write_idle ht hl hw (by simp) hidle, fun hne => absurd ha hne, fun _ => rfl, fun _ => rfl⟩
  · have ha : a = 0x0000C := BitVec.eq_of_toNat_eq (locate_reg hl).2
    exact ⟨_, _, _, step_write_idle ht hl hw (by simp) hidle, fun _ => rfl, fun hne => absurd ha hne, fun _ => rfl⟩
  · have hsz : sz = .byte := (locate_ibuf hl).1
    exact ⟨_, _, _, step_write_idle ht hl hw (by simp) hidle, fun _ => rfl, fun _ => rfl, fun hword => by
      rw [hsz] at hword
      cases hword⟩

/-- A decode issued from idle and completed while the table is invalid ends with BAD_INDEX and keeps the results
(70_reset_and_hazards.md R235). -/
theorem run_decode_of_invalid_table {s : State} {rest : List Turn} {i : Instr} {idx : Half}
    (hi : i = .decTs idx ∨ i = .decSamp idx ∨ i = .decFull idx)
    (ht : s.turns = .host (.write 0x00000 .word (encode i)) :: .engine :: rest) (hidle : s.status.busy = false)
    (hcount : s.candCount = 0) :
    ∃ t, Host.Core.run core 2 s = .next t ∧ t.status.code = .badIndex ∧ t.status.done = true ∧ t.status.busy = false ∧
      t.pend = none ∧ t.candCount = 0 ∧ SameResults s t := by
  have hnone : s.candCount.toNat ≤ idx.toNat := by
    rw [hcount]
    exact Nat.zero_le _
  have hexec := exec_of_badIndex (s := { s with
    turns := rest, log := .write .ok :: s.log, pend := some i, status := s.status.issue }) hi hnone
  exact ⟨_, run_issue_then_engine ht hidle (decode_encode i) hexec, rfl, rfl, rfl, rfl, hcount, rfl, rfl, rfl, rfl, rfl⟩

/-! ### The statements -/

/-- Settles O33: the write takes the field CFG, and the read that follows gives its word. -/
theorem cfgWriteReadsBack : Obligations.CfgWriteReadsBack := by
  intro s rest v hidle ht
  refine ⟨Cfg.ofWord v, rfl, rfl, ?_⟩
  have hl : locate s.params 0x00008 .word = some (.reg .cfg) := locate_word_of_regAt rfl
  have hwrite := step_write_idle ht hl rfl (by simp) hidle
  have hread := step_read_exact (s := (writeIdle (.reg .cfg) v
    { s with turns := .host (.read 0x00008 .word) :: rest }).respond (.write .ok)) rfl hl rfl
  rw [core_run_of_next 1 hwrite, core_run_of_next 0 hread, core_run_zero, ← Cfg.word_ofWord]
  rfl

/-- Settles O34: IBUF_SIZE fits in IN_LEN, so the clamped value is stored without loss. -/
theorem inLenWriteClamps : Obligations.InLenWriteClamps := by
  intro s rest v hp hidle ht
  have hl : locate s.params 0x0000C .word = some (.reg .inLen) := locate_word_of_regAt rfl
  exact ⟨_, inLen_clamp_toNat hp v, step_write_idle ht hl rfl (by simp) hidle⟩

/-- Settles O35: the write leaves CAND_COUNT = 0, at which no index names a candidate. -/
theorem inputWriteInvalidatesTable : Obligations.InputWriteInvalidatesTable := by
  intro s rest a sz v ht hidle h
  obtain ⟨cfg, inLen, ibuf, hstep, hcfg, hinLen, hibuf⟩ := step_inputWrite ht hidle h
  exact ⟨_, hstep, rfl, rfl, hcfg, hinLen, hibuf, fun idx i hi => exec_of_badIndex hi (Nat.zero_le _)⟩

/-- Settles O36: the decode is issued and completed in a state whose CAND_COUNT is 0. -/
theorem decodeAfterInputWriteIsBadIndex : Obligations.DecodeAfterInputWriteIsBadIndex := by
  intro s rest a sz v i idx hi ht hidle h
  obtain ⟨cfg, inLen, ibuf, hstep, -⟩ := step_inputWrite ht hidle h
  obtain ⟨t, hrun, hdecode⟩ := run_decode_of_invalid_table (s := { s with
    turns := .host (.write 0x00000 .word (encode i)) :: .engine :: rest
    log := .write .ok :: s.log
    candCount := 0
    cfg := cfg
    inLen := inLen
    ibuf := ibuf }) hi rfl hidle rfl
  exact ⟨t, (core_run_of_next 2 hstep).trans hrun, hdecode⟩

/-- Settles O51: a read draws and answers, and writes no field of the block. -/
theorem acceptedReadHasNoSideEffect : Obligations.AcceptedReadHasNoSideEffect := by
  intro s rest a sz ht h
  obtain ⟨l, hl⟩ := Option.isSome_iff_exists.mp ((locate_isSome _ _ _).mpr h)
  exact ⟨_, step_read ht hl, rfl⟩

end Sys2Proof.Machine
end

section
/-! Proofs of the statements about what a step may change (10_state.md, 70_reset_and_hazards.md section 2): which turn can
change the inputs, the table, the results, the parameters and the sticky bits. -/

namespace Sys2Proof.Machine

/-! ### What a transaction may change -/

/-- The inputs, the table and the results are the same. -/
def SameData (s t : State) : Prop := SameInputs s t ∧ SameTable s t ∧ SameResults s t

/-- Issue touches STATUS and PEND alone (40_control.md R120, R122). -/
theorem issue_sameData (v : Word) (s : State) : SameData s (issue v s) := by
  unfold issue
  split <;> exact ⟨⟨rfl, fun _ => rfl, rfl, rfl, rfl⟩, ⟨rfl, rfl⟩, rfl, rfl, rfl, rfl, rfl⟩

/-- Issue leaves the sticky bits (10_state.md R35, R36). -/
theorem issue_sticky (v : Word) (s : State) :
    (issue v s).status.busyErr = s.status.busyErr ∧ (issue v s).status.accErr = s.status.accErr := by
  unfold issue
  split <;> exact ⟨rfl, rfl⟩

/-- What the HOST's write of `v` at `a` does where it reaches an input while idle: that input and CAND_COUNT change, and
nothing else of the inputs, the table and the results (20_memory.md R64, R70, R73). -/
structure InputWritten (s t : State) (a : Addr) (sz : Size) (v : Word) : Prop where
  idle     : s.status.busy = false
  accepted : InputWriteAccepted s.params a.toNat sz
  params   : t.params = s.params
  cfg      : t.cfg = s.cfg ∨ a = 0x00008 ∧ sz = .word
  inLen    : t.inLen = s.inLen ∨ a = 0x0000C ∧ sz = .word
  ibuf     : t.ibuf = s.ibuf ∨ ∃ i, sz = .byte ∧ a.toNat = 0x10000 + i ∧ i < s.params.ibufSize ∧
    t.ibuf = Memory.write s.ibuf i (v.extractLsb' 0 8)
  invalid  : t.candCount = 0
  entries  : t.candTable = s.candTable
  results  : SameResults s t

/-- A transaction leaves the inputs, the table and the results alone, but for an input write while idle. -/
theorem transact_effect (tr : Transaction) (s : State) :
    SameData s (transact tr s) ∨ ∃ a sz v, tr = .write a sz v ∧ InputWritten s (transact tr s) a sz v := by
  rcases transact_cases tr s with h | ⟨a, sz, l, -, -, h⟩ | ⟨a, sz, v, l, rfl, hl, hw, h⟩ <;> rw [h]
  case inr.inr =>
    have haccepted : WriteAccepted s.params a.toNat sz := (locate_writable _ _ _).mp ⟨l, hl, hw⟩
    rcases writeLoc_cases hw v s with ⟨-, h⟩ | ⟨-, h⟩ | ⟨hidle, ⟨-, h⟩ | ⟨rfl, h⟩ | ⟨rfl, h⟩ | ⟨i, rfl, h⟩⟩ <;> rw [h]
    case inr.inr.inl => exact .inl (issue_sameData v s)
    case inr.inr.inr.inl =>
      obtain ⟨hsz, ha⟩ := locate_reg hl
      exact .inr ⟨a, sz, v, rfl, {
        idle := hidle, accepted := .inl ⟨hsz, .inl ha⟩, params := rfl
        cfg := .inr ⟨BitVec.eq_of_toNat_eq ha, hsz⟩, inLen := .inl rfl, ibuf := .inl rfl
        invalid := rfl, entries := rfl, results := ⟨rfl, rfl, rfl, rfl, rfl⟩ }⟩
    case inr.inr.inr.inr.inl =>
      obtain ⟨hsz, ha⟩ := locate_reg hl
      exact .inr ⟨a, sz, v, rfl, {
        idle := hidle, accepted := .inl ⟨hsz, .inr ha⟩, params := rfl
        cfg := .inl rfl, inLen := .inr ⟨BitVec.eq_of_toNat_eq ha, hsz⟩, ibuf := .inl rfl
        invalid := rfl, entries := rfl, results := ⟨rfl, rfl, rfl, rfl, rfl⟩ }⟩
    case inr.inr.inr.inr.inr =>
      obtain ⟨hsz, ha, hi⟩ := locate_ibuf hl
      exact .inr ⟨a, sz, v, rfl, {
        idle := hidle, accepted := haccepted.resolve_left (by simp [hsz]), params := rfl
        cfg := .inl rfl, inLen := .inl rfl, ibuf := .inr ⟨i, hsz, ha, hi, rfl⟩
        invalid := rfl, entries := rfl, results := ⟨rfl, rfl, rfl, rfl, rfl⟩ }⟩
    all_goals exact .inl ⟨⟨rfl, fun _ => rfl, rfl, rfl, rfl⟩, ⟨rfl, rfl⟩, rfl, rfl, rfl, rfl, rfl⟩
  all_goals exact .inl ⟨⟨rfl, fun _ => rfl, rfl, rfl, rfl⟩, ⟨rfl, rfl⟩, rfl, rfl, rfl, rfl, rfl⟩

/-- A transaction sets sticky bits and clears none, but for the HOST's write to STATUS (10_state.md R35-R37). -/
theorem transact_sticky (tr : Transaction) (s : State) :
    ((s.status.busyErr = true → (transact tr s).status.busyErr = true) ∧
      (s.status.accErr = true → (transact tr s).status.accErr = true)) ∨
    ∃ v, tr = .write 0x00004 .word v ∧ (transact tr s).status = s.status.clearSticky v := by
  rcases transact_cases tr s with h | ⟨a, sz, l, -, -, h⟩ | ⟨a, sz, v, l, rfl, hl, hw, h⟩ <;> rw [h]
  · exact .inl ⟨id, fun _ => rfl⟩
  · exact .inl ⟨id, id⟩
  · rcases writeLoc_cases hw v s with ⟨rfl, h⟩ | ⟨-, h⟩ | ⟨-, ⟨-, h⟩ | ⟨-, h⟩ | ⟨-, h⟩ | ⟨i, -, h⟩⟩ <;> rw [h]
    case inl =>
      obtain ⟨rfl, rfl⟩ := locate_status hl
      exact .inr ⟨v, rfl, rfl⟩
    case inr.inl => exact .inl ⟨fun _ => rfl, id⟩
    case inr.inr.inl =>
      obtain ⟨hbusyErr, haccErr⟩ := issue_sticky v s
      exact .inl ⟨hbusyErr.trans, haccErr.trans⟩
    all_goals exact .inl ⟨id, id⟩

/-! ### What a step may change -/

/-- A step that has a next state is a reset, an ENGINE's completion, an input write while idle, or leaves the inputs, the
table and the results alone. -/
theorem step_effect {s t : State} (h : step s = .next t) :
    (∃ rest, s.turns = .reset :: rest ∧ t.params = s.params) ∨
    (s.EngineTurn ∧ ∃ i u, s.pend = some i ∧ exec i { s with turns := s.turns.tail } = .next u ∧ t = u.complete) ∨
    (∃ a sz v rest, s.turns = .host (.write a sz v) :: rest ∧ InputWritten s t a sz v) ∨
    SameData s t := by
  rcases step_cases h with ⟨-, -, rfl⟩ | hcompletes | ⟨tr, rest, ht, rfl⟩ | ⟨rest, ht, rfl⟩
  · exact .inr (.inr (.inr ⟨⟨rfl, fun _ => rfl, rfl, rfl, rfl⟩, ⟨rfl, rfl⟩, rfl, rfl, rfl, rfl, rfl⟩))
  · exact .inr (.inl hcompletes)
  · rcases transact_effect tr { s with turns := rest } with hsame | ⟨a, sz, v, rfl, hinput⟩
    · exact .inr (.inr (.inr hsame))
    · exact .inr (.inr (.inl ⟨a, sz, v, rest, ht, { hinput with }⟩))
  · exact .inl ⟨rest, ht, rfl⟩

/-- A command that changes the results is a decode of an index the table holds (42_extractor.md R160). -/
theorem decode_of_results_changed {i : Instr} {s t : State} (h : exec i s = .next t) (hne : ¬ SameResults s t) :
    ∃ idx, (i = .decTs idx ∨ i = .decSamp idx ∨ i = .decFull idx) ∧ idx.toNat < s.candCount.toNat := by
  obtain ⟨-, -, -, hresults, -⟩ := commandFootprint i s t h
  rcases nop_or_scan_or_decode i with ⟨idx, hnop⟩ | ⟨idx, hscan⟩ | ⟨idx, hi⟩
  · exact absurd (hresults ⟨idx, .inl hnop⟩) hne
  · exact absurd (hresults ⟨idx, .inr hscan⟩) hne
  · obtain ⟨-, rfl⟩ | ⟨hidx, -⟩ := decode_ends hi h
    · exact absurd ⟨rfl, rfl, rfl, rfl, rfl⟩ hne
    · exact ⟨idx, hi, hidx⟩

/-! ### The statements -/

/-- Settles O38: the ENGINE writes no sticky bit, and of the HOST's writes only STATUS clears one. -/
theorem stickyBitsStayUntilCleared : Obligations.StickyBitsStayUntilCleared := by
  intro s t h
  rcases step_cases h with ⟨-, -, rfl⟩ | ⟨-, i, u, -, hexec, rfl⟩ | ⟨tr, rest, ht, rfl⟩ | ⟨rest, ht, -⟩
  · exact ⟨fun hset hclear => by simp [hset] at hclear, fun hset hclear => by simp [hset] at hclear⟩
  · obtain ⟨-, ⟨-, -, -, hbusyErr, haccErr, -⟩, -⟩ := commandFootprint i _ u hexec
    exact ⟨fun hset hclear => by simp [hbusyErr, hset] at hclear, fun hset hclear => by simp [haccErr, hset] at hclear⟩
  · rcases transact_sticky tr { s with turns := rest } with ⟨hbusyErr, haccErr⟩ | ⟨v, rfl, hstatus⟩
    · exact ⟨fun hset hclear => by simp [hbusyErr hset] at hclear, fun hset hclear => by simp [haccErr hset] at hclear⟩
    · rw [hstatus]
      exact ⟨fun hset hclear => .inr ⟨v, rest, ht, by simpa [hset] using hclear⟩,
        fun hset hclear => .inr ⟨v, rest, ht, by simpa [hset] using hclear⟩⟩
  · exact ⟨fun _ _ => .inl ⟨rest, ht⟩, fun _ _ => .inl ⟨rest, ht⟩⟩

/-- Settles O47: of all effects only an input write reaches a cell of IBUF, the one it names. -/
theorem onlyHostWritesIbuf : Obligations.OnlyHostWritesIbuf := by
  intro s t h i hne
  rcases step_effect h with ⟨rest, ht, -⟩ | ⟨-, j, u, -, hexec, rfl⟩ | ⟨a, sz, v, rest, ht, hinput⟩ | ⟨hsame, -⟩
  · exact .inl ⟨rest, ht⟩
  · obtain ⟨⟨-, hread, -⟩, -⟩ := commandFootprint j _ u hexec
    exact absurd (hread i) hne
  · obtain hibuf | ⟨k, rfl, ha, hk, hibuf⟩ := hinput.ibuf
    · rw [hibuf] at hne
      exact absurd rfl hne
    · rw [hibuf, Memory.read_write] at hne ⊢
      obtain rfl : i = k := by
        by_contra hik
        exact hne (if_neg hik)
      exact .inr ⟨a, v, rest, ht, hinput.idle, ha, hk, if_pos rfl⟩
  · obtain ⟨-, hread, -⟩ := hsame
    exact absurd (hread i) hne

/-- Settles O48: of all effects only a decode that passes Lookup reaches the results. -/
theorem resultsChangeOnlyByDecode : Obligations.ResultsChangeOnlyByDecode := by
  intro s t h hne
  rcases step_effect h with ⟨rest, ht, -⟩ | ⟨hturn, i, u, hpend, hexec, rfl⟩ | ⟨a, sz, v, rest, -, hinput⟩ |
    ⟨-, -, hsame⟩
  · exact .inl ⟨rest, ht⟩
  · obtain ⟨idx, hi, hidx⟩ := decode_of_results_changed hexec hne
    exact .inr ⟨i, idx, hpend, hi, hidx, hturn⟩
  · exact absurd hinput.results hne
  · exact absurd hsame hne

/-- Settles O49: of all effects only SCAN and an input write reach the table. -/
theorem tableChangesOnlyByScanOrInvalidation : Obligations.TableChangesOnlyByScanOrInvalidation := by
  intro s t h hne
  rcases step_effect h with ⟨rest, ht, -⟩ | ⟨hturn, i, u, hpend, hexec, rfl⟩ | ⟨a, sz, v, rest, ht, hinput⟩ |
    ⟨-, hsame, -⟩
  · exact .inl ⟨rest, ht⟩
  · obtain ⟨-, -, htable, -⟩ := commandFootprint i _ u hexec
    obtain ⟨idx, rfl⟩ : ∃ idx, i = .scan idx := by
      by_contra hscan
      exact hne (htable fun idx hi => hscan ⟨idx, hi⟩)
    exact .inr (.inl ⟨idx, hpend, hturn⟩)
  · exact .inr (.inr ⟨a, sz, v, rest, ht, hinput.idle, hinput.accepted, hinput.invalid, hinput.entries⟩)
  · exact absurd hsame hne

/-- Settles O50: no effect reaches the parameters, and only an input write at its address CFG or IN_LEN. -/
theorem configurationChangesOnlyByIdleWrite : Obligations.ConfigurationChangesOnlyByIdleWrite := by
  intro s t h
  rcases step_effect h with ⟨rest, ht, hparams⟩ | ⟨-, i, u, -, hexec, rfl⟩ | ⟨a, sz, v, rest, ht, hinput⟩ | ⟨hsame, -⟩
  · exact ⟨hparams, fun _ => .inl ⟨rest, ht⟩, fun _ => .inl ⟨rest, ht⟩⟩
  · obtain ⟨⟨hparams, -, -, hinLen, hcfg⟩, -⟩ := commandFootprint i _ u hexec
    exact ⟨hparams, fun hne => absurd hcfg hne, fun hne => absurd hinLen hne⟩
  · refine ⟨hinput.params, fun hne => ?_, fun hne => ?_⟩
    · obtain ⟨rfl, rfl⟩ := hinput.cfg.resolve_left hne
      exact .inr ⟨v, rest, ht, hinput.idle⟩
    · obtain ⟨rfl, rfl⟩ := hinput.inLen.resolve_left hne
      exact .inr ⟨v, rest, ht, hinput.idle⟩
  · obtain ⟨hparams, -, -, hinLen, hcfg⟩ := hsame
    exact ⟨hparams, fun hne => absurd hcfg hne, fun hne => absurd hinLen hne⟩

end Sys2Proof.Machine
end

section
/-! Proofs of the statements about the fields of STATUS (10_state.md R29) and about the state right after reset (R47). -/

namespace Sys2Proof.Machine

/-- The STATUS word at the width its fields add up to (R29). -/
def Status.fields (t : Status) : BitVec (14 + 1 + 1 + 6 + 1 + 1 + 4 + 2 + 1 + 1) := t.word

/-- The one-bit fields: the bit at a field's place is the field. -/
theorem Status.fields_flags (t : Status) :
    t.fields.getLsbD 0 = t.busy ∧ t.fields.getLsbD 1 = t.done ∧ t.fields.getLsbD 8 = t.odd ∧
      t.fields.getLsbD 9 = t.nominal ∧ t.fields.getLsbD 16 = t.busyErr ∧ t.fields.getLsbD 17 = t.accErr := by
  unfold Status.fields Status.word
  simp only [BitVec.getLsbD_append]
  simp

/-- CODE: the four bits past BUSY, DONE and the reserved bits 3:2. -/
theorem Status.fields_code (t : Status) : t.fields.extractLsb' 4 4 = t.code.bits := by
  unfold Status.fields Status.word
  simp (disch := decide) only [BitVec.extractLsb'_append_eq_of_le]
  exact BitVec.extractLsb'_append_eq_right

/-- The reserved fields read 0. -/
theorem Status.fields_reserved (t : Status) :
    t.fields.extractLsb' 2 2 = 0 ∧ t.fields.extractLsb' 10 6 = 0 ∧ t.fields.extractLsb' 18 14 = 0 := by
  unfold Status.fields Status.word
  simp (disch := decide) only [BitVec.extractLsb'_append_eq_of_le]
  exact ⟨BitVec.extractLsb'_append_eq_right, BitVec.extractLsb'_append_eq_right, rfl⟩

/-- The numbers of the codes (60_exceptions.md R201). -/
theorem CompletionCode.bits_toNat (c : CompletionCode) :
    c.bits.toNat = (match c with | .ok => 0 | .tooShort => 1 | .badIndex => 2 | .badCmd => 3) := by
  cases c <;> rfl

/-- Settles O39: the fields of the word, each at its place. -/
theorem statusWordLayout : Obligations.StatusWordLayout := by
  intro t
  obtain ⟨hbusy, hdone, hodd, hnominal, hbusyErr, haccErr⟩ := t.fields_flags
  obtain ⟨hreservedLow, hreservedMid, hreservedHigh⟩ := t.fields_reserved
  have hcode := (congrArg BitVec.toNat t.fields_code).trans t.code.bits_toNat
  exact ⟨hbusy, hdone, hreservedLow, hcode, hodd, hnominal, hreservedMid, hbusyErr, haccErr, hreservedHigh⟩

/-- Settles O42: the reset values, field by field. -/
theorem resetStateHoldsResetValues : Obligations.ResetStateHoldsResetValues :=
  ⟨fun _ => rfl, rfl, by decide, Status.reset_word, rfl, rfl, rfl, rfl, rfl, rfl, rfl, rfl⟩

end Sys2Proof.Machine
end
